-- ==== Sys2Proof/Word.lean ====
section
/-! DEFINITION. The word types of the HMLL core (00_scope.md R7, R8): everything here is unsigned. -/

namespace Sys2Proof

/-- An 8-bit message byte, register-file cell or `aux` field (R7, R60). -/
abbrev Byte := BitVec 8

/-- A 32-bit word: hash, seed, message length or `arg` field (R7, R60). -/
abbrev Word := BitVec 32

/-- A 48-bit command word (R60). -/
abbrev CmdWord := BitVec 48

/-- The 64-bit data field of a response (R61). -/
abbrev Data := BitVec 64

/-- A finite binary64 value, held as the rational number it denotes (R10, R168; log entry 8). -/
abbrev F64 := Rat

end Sys2Proof
end

