-- ==== Sys2Proof/Syntax.lean ====
section
/-! DEFINITION. The fifteen commands of the HMLL core (30_encoding.md R64) with the operands of R63, and one line of the
assembler's source (R69). An operand of `Instr` has exactly its field's width, so every term of `Instr` is encodable. -/

namespace Sys2Proof

/-- The commands, one constructor per row of spec/opcode_table.json, in its order. -/
inductive Instr where
  /-- SETSEED seed (R110) -/
  | setseed (seed : Word)
  /-- GETSEED (R111) -/
  | getseed
  /-- HBEGIN (R112) -/
  | hbegin
  /-- HEND (R115) -/
  | hend
  /-- PUSHB byte (R113) -/
  | pushb (byte : Byte)
  /-- PUSHW word (R114) -/
  | pushw (w : Word)
  /-- MABORT (R116) -/
  | mabort
  /-- CONFIG b, seed (R133); `b` is any `uint8`, its range is checked when the command executes -/
  | config (b : Byte) (seed : Word)
  /-- ABEGIN (R134) -/
  | abegin
  /-- AEND (R135) -/
  | aend
  /-- ESTIMATE (R160) -/
  | estimate
  /-- CLEAR (R136) -/
  | clear
  /-- GETM (R137) -/
  | getm
  /-- GETB (R138) -/
  | getb
  /-- RDREG index (R139) -/
  | rdreg (index : Word)
deriving DecidableEq, Repr

/-- The four command formats (R62): which operand fields a command uses. -/
inductive Format where
  /-- no operand field used -/
  | N
  /-- `arg` used -/
  | A
  /-- `aux` used -/
  | X
  /-- `aux` and `arg` used -/
  | XA
deriving DecidableEq, Repr

/-- The mnemonics of R64, as the assembler's source names the commands. -/
inductive Mnemonic where
  | SETSEED | GETSEED | HBEGIN | HEND | PUSHB | PUSHW | MABORT | CONFIG
  | ABEGIN | AEND | ESTIMATE | CLEAR | GETM | GETB | RDREG
deriving DecidableEq, Repr

/-- One assembler line after its text is read (R69): a mnemonic and its operands, numbers of any size. -/
structure AsmLine where
  mnemonic : Mnemonic
  operands : List Nat
deriving DecidableEq, Repr

end Sys2Proof
end

