-- ==== Sys2Proof/WellFormed.lean ====
section
/-! DEFINITION. Well-formedness. A command word is legal when some row of the opcode map selects it (30_encoding.md R62,
R64, R65, R66); an assembler line is well formed when its operands fit their fields (R69). A term of `Instr` carries its
operands at their fields' widths, so it needs no check of its own. -/

namespace Sys2Proof

/-- The bits the decoder compares in a format (R62). -/
def Format.mask : Format → CmdWord
  | .N => 0xFFFFFFFFFFFF#48
  | .A => 0xFFFF00000000#48
  | .X => 0xFF00FFFFFFFF#48
  | .XA => 0xFF0000000000#48

/-- One row of the opcode map (R64). -/
structure OpRow where
  mnemonic : Mnemonic
  op : Byte
  format : Format
deriving DecidableEq, Repr

/-- The complete opcode map (R64), in the order of spec/opcode_table.json. -/
def opcodeMap : List OpRow :=
  [⟨.SETSEED, 0x01#8, .A⟩, ⟨.GETSEED, 0x02#8, .N⟩, ⟨.HBEGIN, 0x03#8, .N⟩, ⟨.HEND, 0x04#8, .N⟩,
   ⟨.PUSHB, 0x08#8, .X⟩, ⟨.PUSHW, 0x09#8, .A⟩, ⟨.MABORT, 0x0A#8, .N⟩] ++
  [⟨.CONFIG, 0x10#8, .XA⟩, ⟨.ABEGIN, 0x11#8, .N⟩, ⟨.AEND, 0x12#8, .N⟩, ⟨.ESTIMATE, 0x13#8, .N⟩,
   ⟨.CLEAR, 0x14#8, .N⟩, ⟨.GETM, 0x15#8, .N⟩, ⟨.GETB, 0x16#8, .N⟩, ⟨.RDREG, 0x17#8, .A⟩]

/-- `match` of a row: `op << 40` (R62). -/
def OpRow.pattern (r : OpRow) : CmdWord := r.op.setWidth 48 <<< 40

/-- A row selects a word when `(cmd and mask) = match` (R62). -/
def OpRow.selects (r : OpRow) (w : CmdWord) : Bool := (w &&& r.format.mask) == r.pattern

/-- A word is legal when some row selects it; every other word is illegal (R65, R66). -/
def CmdWord.legal (w : CmdWord) : Bool := opcodeMap.any fun r => r.selects w

/-- How many bits each operand of a command has, in the order the assembler writes them (R63, R69). -/
def Mnemonic.operandWidths : Mnemonic → List Nat
  | .SETSEED => [32]
  | .PUSHB => [8]
  | .PUSHW => [32]
  | .CONFIG => [8, 32]
  | .RDREG => [32]
  | .GETSEED | .HBEGIN | .HEND | .MABORT | .ABEGIN | .AEND | .ESTIMATE | .CLEAR | .GETM | .GETB => []

/-- The operands of an assembler line are as many as the command takes, each inside its field's range; otherwise the line
cannot be encoded and is an assembler error (R69). -/
def AsmLine.wellFormed (l : AsmLine) : Bool :=
  l.operands.length == l.mnemonic.operandWidths.length &&
    (l.operands.zip l.mnemonic.operandWidths).all fun p => p.1 < 2 ^ p.2

end Sys2Proof
end

