-- ==== Sys2Proof/Decode.lean ====
section
/-! DEFINITION. Decoding and encoding of command words (30_encoding.md R60 to R66, R68). Decoding is total on 48-bit words,
reads no state, and names what is wrong with a word it rejects. -/

namespace Sys2Proof

/-- Why a word is not a command (R66); every one of them is answered with status ILLEGAL (R205). -/
inductive Illegal where
  /-- (a) `op` is none of the fifteen values of R64 -/
  | unknownOpcode
  /-- (b) the command has no 8-bit operand and `aux` is not 0 -/
  | auxNotZero
  /-- (b) the command has no 32-bit operand and `arg` is not 0 -/
  | argNotZero
deriving DecidableEq, Repr

/-- `cmd.op`, bits 47:40 (R60). -/
def opField (w : CmdWord) : Byte := w.extractLsb' 40 8

/-- `cmd.aux`, bits 39:32 (R60). -/
def auxField (w : CmdWord) : Byte := w.extractLsb' 32 8

/-- `cmd.arg`, bits 31:0 (R60). -/
def argField (w : CmdWord) : Word := w.extractLsb' 0 32

/-- Format N: both operand fields must be 0 (R62). -/
def decodeN (w : CmdWord) (i : Instr) : Except Illegal Instr :=
  if auxField w ≠ 0 then .error .auxNotZero
  else if argField w ≠ 0 then .error .argNotZero
  else .ok i

/-- Format A: `aux` must be 0, `arg` is the operand (R62, R63). -/
def decodeA (w : CmdWord) (i : Word → Instr) : Except Illegal Instr :=
  if auxField w ≠ 0 then .error .auxNotZero else .ok (i (argField w))

/-- Format X: `aux` is the operand, `arg` must be 0 (R62, R63). -/
def decodeX (w : CmdWord) (i : Byte → Instr) : Except Illegal Instr :=
  if argField w ≠ 0 then .error .argNotZero else .ok (i (auxField w))

/-- Format XA: both fields are operands, so no word of this opcode is illegal (R62, R63). -/
def decodeXA (w : CmdWord) (i : Byte → Word → Instr) : Except Illegal Instr :=
  .ok (i (auxField w) (argField w))

/-- The decoder (R64, R65): the row whose `op` is `cmd[47:40]`, then the row's must-be-zero fields. -/
def decode (w : CmdWord) : Except Illegal Instr :=
  match (opField w).toNat with
  | 0x01 => decodeA w .setseed
  | 0x02 => decodeN w .getseed
  | 0x03 => decodeN w .hbegin
  | 0x04 => decodeN w .hend
  | 0x08 => decodeX w .pushb
  | 0x09 => decodeA w .pushw
  | 0x0A => decodeN w .mabort
  | 0x10 => decodeXA w .config
  | 0x11 => decodeN w .abegin
  | 0x12 => decodeN w .aend
  | 0x13 => decodeN w .estimate
  | 0x14 => decodeN w .clear
  | 0x15 => decodeN w .getm
  | 0x16 => decodeN w .getb
  | 0x17 => decodeA w .rdreg
  | _ => .error .unknownOpcode

/-- A command word from its three fields (R60). -/
def cmdWord (op aux : Byte) (arg : Word) : CmdWord := op ++ (aux ++ arg)

/-- The encoder: the word of a command, its unused fields 0 (R62, R64). -/
def encode : Instr → CmdWord
  | .setseed seed => cmdWord 0x01 0 seed
  | .getseed => cmdWord 0x02 0 0
  | .hbegin => cmdWord 0x03 0 0
  | .hend => cmdWord 0x04 0 0
  | .pushb byte => cmdWord 0x08 byte 0
  | .pushw w => cmdWord 0x09 0 w
  | .mabort => cmdWord 0x0A 0 0
  | .config b seed => cmdWord 0x10 b seed
  | .abegin => cmdWord 0x11 0 0
  | .aend => cmdWord 0x12 0 0
  | .estimate => cmdWord 0x13 0 0
  | .clear => cmdWord 0x14 0 0
  | .getm => cmdWord 0x15 0 0
  | .getb => cmdWord 0x16 0 0
  | .rdreg index => cmdWord 0x17 0 index

/-- The mnemonic of a command (R64). -/
def mnemonicOf : Instr → Mnemonic
  | .setseed _ => .SETSEED
  | .getseed => .GETSEED
  | .hbegin => .HBEGIN
  | .hend => .HEND
  | .pushb _ => .PUSHB
  | .pushw _ => .PUSHW
  | .mabort => .MABORT
  | .config _ _ => .CONFIG
  | .abegin => .ABEGIN
  | .aend => .AEND
  | .estimate => .ESTIMATE
  | .clear => .CLEAR
  | .getm => .GETM
  | .getb => .GETB
  | .rdreg _ => .RDREG

/-- The word that `nbits` bits of a row of spec/opcode_table.json make: bit 0 is bit 0 of `cmd`, and the bits from `nbits`
on are 0 (R8, R60; log entry 15). -/
def tableWord (nbits w : Nat) : CmdWord := BitVec.ofNat 48 (w % 2 ^ nbits)

/-- The command this decoder reads from a table row's word, for the host's questions. -/
def decodeTableWord (nbits w : Nat) : Option Instr :=
  match decode (tableWord nbits w) with
  | .ok i => some i
  | .error _ => none

end Sys2Proof
end

