-- ==== Sys2Proof/Config.lean ====
section
/-! DEFINITION. What the spec leaves open, as constants without a body: no proof can see what they are, so a claim holds
for every value of them (00_scope.md R7; 92_eei_decisions.md, "Open parameters, gathered"; 93 U1 to U3). -/

namespace Sys2Proof

/-- SEED_DEFAULT, the reset value of HSEED: an OPEN 32-bit parameter (R7, R36, D19, U1; log entry 3). -/
opaque Config.seedDefault : Word

/-- The contents of ESEED after reset, which R36 leaves unspecified (U3). DESIGN CHOICE, log entry 4. -/
opaque Config.resetEseed : Word

/-- The contents of B after reset, which R36 leaves unspecified (U3). DESIGN CHOICE, log entry 4. -/
opaque Config.resetB : BitVec 5

/-- The values (L2) of R172 leaves LN at one argument. -/
inductive LnChoice where
  /-- the binary64 value next below the real logarithm -/
  | below
  /-- the binary64 value next above it -/
  | above
  /-- the value one step further from zero, where that is a power of two and so has a unit twice as large -/
  | beyond
deriving DecidableEq, Repr, Inhabited

/-- The open part of LN (R172, D20, U2): which of these values LN answers at each argument. DEDUCED, log entry 7. -/
opaque Config.lnChoice : F64 → LnChoice

end Sys2Proof
end

