-- ==== Sys2Proof/Machine/State.lean ====
section
/-! DEFINITION. The state of the HMLL core (10_state.md R20 to R36), the two channels of 70_reset_and_hazards.md R240, and
the reasons a step can stop. -/

namespace Sys2Proof.Machine

/-- MODE, the message phase (R26). The encoding 3 is never produced and is not representable (I-6 of R31, U11; log entry 9). -/
inductive Mode where
  /-- 0: no message is open -/
  | idle
  /-- 1: a message opened by HBEGIN is being absorbed -/
  | hash
  /-- 2: a message opened by ABEGIN is being absorbed -/
  | add
deriving DecidableEq, Repr

/-- The status of a response (R200). The codes 8 to 15 are never produced and are not representable (U11; log entry 9). -/
inductive Status where
  /-- the command was carried out -/
  | ok
  /-- CONFIG with B outside [4, 16] (R204) -/
  | invalidParameter
  /-- the word is not a command (R205) -/
  | illegal
  /-- the command is not admitted in the current phase (R206) -/
  | seq
  /-- an estimator command while CFGV = 0 (R207) -/
  | nocfg
  /-- RDREG with an index from m on (R208) -/
  | index
  /-- a push past 2^32 - 1 message bytes (R209) -/
  | len
  /-- ESTIMATE where the large-range formula has no value (R210) -/
  | range
deriving DecidableEq, Repr

/-- One response: status and data (R61). -/
structure Response where
  status : Status
  data : Data
deriving DecidableEq, Repr

/-- What the host can do to the block (R240): send one command word, or cause the reset event between two commands. -/
inductive HostEvent where
  | command (w : CmdWord)
  | reset
deriving DecidableEq, Repr

/-- Why the machine stops. Neither reason can arise in a state that reset and commands reach (R31, R216): they mark states in
which a rule names a cell or a sum that does not exist. Log entry 10. -/
inductive Fault where
  /-- Raised by RDREG, AEND, CLEAR and ESTIMATE for a cell index from 65536 on, which "name[s] nothing" (R46); it needs
  B > 16, which I-1 of R31 excludes. Safe: the model stops where the spec names no cell. -/
  | noSuchCell
  /-- Raised by ESTIMATE when a cell below m holds more than 29, for which R161 has no integer ZI; I-2 of R31 excludes it.
  Safe: the model stops where the spec gives no sum. -/
  | cellOutOfRange
deriving DecidableEq, Repr

/-- Why a command has no meaning. -/
inductive Refusal where
  /-- The command's arm of `exec` is still to be written. No arm of this model answers it. Safe. -/
  | notModelled (mnemonic : String)
deriving DecidableEq, Repr

/-- The complete state: the tuple of R20, then the two channels of R240. -/
structure State where
  /-- HSEED, the standalone engine's seed (R21) -/
  hseed : Word
  /-- ESEED, the estimator's seed (R22) -/
  eseed : Word
  /-- B, the precision (R23) -/
  b : BitVec 5
  /-- CFGV, estimator configured (R24) -/
  cfgv : Bool
  /-- M, the register file (R25): the cells that hold something other than 0, by rising index (log entry 5) -/
  m : List Host.Cell
  /-- MODE (R26) -/
  mode : Mode
  /-- H1, the hash accumulator (R27) -/
  h1 : Word
  /-- TAIL[0] (R28) -/
  tail0 : Byte
  /-- TAIL[1] (R28) -/
  tail1 : Byte
  /-- TAIL[2] (R28) -/
  tail2 : Byte
  /-- TCNT, the bytes of the partial block (R28) -/
  tcnt : BitVec 2
  /-- LEN, the message bytes absorbed so far (R29) -/
  len : Word
  /-- the command channel: what the host has still to send, the next event first (R240, R33; log entry 1) -/
  cmdIn : List HostEvent
  /-- the response channel: the responses given so far, oldest first (R47, R239; log entry 2) -/
  rspOut : List Response
deriving DecidableEq, Repr

/-- The state after reset (R36, R231). HSEED, ESEED and B hold open constants of Config (log entries 3 and 4), no cell of M is
listed (log entry 5), and the channels are empty (log entries 1 and 2). -/
def State.reset : State where
  hseed := Config.seedDefault
  eseed := Config.resetEseed
  b := Config.resetB
  cfgv := false
  m := []
  mode := .idle
  h1 := 0
  tail0 := 0
  tail1 := 0
  tail2 := 0
  tcnt := 0
  len := 0
  cmdIn := []
  rspOut := []

end Sys2Proof.Machine
end

