-- ==== Sys2Proof/Machine/Ops.lean ====
section
/-! DEFINITION. The named operations over the register file, the message registers and the two channels: how a command
ends (00_scope.md R9, 60_exceptions.md R203), how a cell is read and written (20_memory.md R40 to R46), how a message opens
and closes (40 R112, R115, R134), and the reset event (70 R230). -/

namespace Sys2Proof.Machine

/-- What a command answers: a next state, a fault or a refusal. -/
abbrev Result := Host.Outcome State Fault Refusal

/-! ### How a command ends -/

/-- Put one response on the response channel, after the earlier ones (R47, R61). -/
def State.answer (s : State) (r : Response) : State := { s with rspOut := s.rspOut ++ [r] }

/-- `respond(d)`: the command ends with status OK and data `d` (R9). -/
def respond (d : Data) (s : State) : Result := .next (s.answer ⟨.ok, d⟩)

/-- `raise st`: the block's one way to take an error. The command ends with the status and data 0, changes no state element,
saves nothing and goes nowhere (R9, R203, R212); there is no return from it because nothing is to be restored (R213). -/
def raise (st : Status) (s : State) : Result := .next (s.answer ⟨st, 0⟩)

/-! ### The register file -/

/-- The physical cells of M (R25). -/
def physCells : Nat := 65536

/-- Read cell `j`: an unlisted cell reads as 0 (R9 `M[i]`; log entry 5). -/
def Memory.read : List Host.Cell → Nat → Byte
  | [], _ => 0
  | c :: rest, j => if c.1 = j then c.2 else Memory.read rest j

/-- Write cell `j`, keeping the canonical form: writing 0 unlists the cell (R9 `M[i] <- v`). -/
def Memory.write : List Host.Cell → Nat → Byte → List Host.Cell
  | [], j, v => if v = 0 then [] else [(j, v)]
  | c :: rest, j, v =>
    if c.1 < j then c :: Memory.write rest j v
    else
      let above := if c.1 = j then rest else c :: rest
      if v = 0 then above else (j, v) :: above

/-- Write 0 to the cells `0 .. n - 1` and leave every other cell as it is (R41: CONFIG and CLEAR). -/
def Memory.zeroBelow (m : List Host.Cell) (n : Nat) : List Host.Cell := m.filter fun c => n ≤ c.1

/-- The canonical form of M: indices strictly rising and below 65536, no listed cell holding 0. -/
def Memory.wf : List Host.Cell → Bool
  | [] => true
  | c :: rest =>
    decide (c.1 < physCells) && c.2 != 0 && rest.all (fun d => decide (c.1 < d.1)) && Memory.wf rest

/-- Go on with a command that reaches the cells `0 .. n - 1`, or stop: an index from 65536 on names nothing (R46). -/
def withCells (n : Nat) (k : Result) : Result := if n ≤ physCells then k else .fault .noSuchCell

/-- m = 2^B, the register count (R30). -/
def State.regCount (s : State) : Nat := 2 ^ s.b.toNat

/-! ### Messages -/

/-- Open a message: the seed injection of HBEGIN and ABEGIN (R112, R134). TAIL is not written. -/
def State.openMessage (s : State) (seed : Word) (phase : Mode) : State :=
  { s with h1 := seed, tcnt := 0, len := 0, mode := phase }

/-- End a message: the working registers become 0 and MODE becomes IDLE (R115, R116, R135; D23). -/
def State.closeMessage (s : State) : State :=
  { s with h1 := 0, tail0 := 0, tail1 := 0, tail2 := 0, tcnt := 0, len := 0, mode := .idle }

/-! ### The two channels -/

/-- The reset event: the reset state, whatever the state was, and no response (R230). The channels are the host's side and
are left as they are (log entry 6). -/
def State.resetEvent (s : State) : State := { State.reset with cmdIn := s.cmdIn, rspOut := s.rspOut }

/-- A word that is no command: the pseudo-command ILLEGAL, whatever MODE and CFGV are (R65, R205). -/
def illegalCommand (s : State) : Result := raise .illegal s

/-- Put a word at the head of the command channel, before what is still to come. -/
def State.sendFirst (s : State) (w : CmdWord) : State := { s with cmdIn := .command w :: s.cmdIn }

end Sys2Proof.Machine
end

