-- ==== Sys2Proof/Machine/Flags.lean ====
section
/-! DEFINITION. The block has no flags and no condition codes (10_state.md R35). What decides a command's outcome is this
file's: the status codes and the response word (60 R200, 30 R61), and the checks before a command's effect, in the order of
60 R202: the phase, then CFGV, then the command's own operand check. -/

namespace Sys2Proof.Machine

/-- The 4-bit code of a status (R200). -/
def statusCode : Status → BitVec 4
  | .ok => 0
  | .invalidParameter => 1
  | .illegal => 2
  | .seq => 3
  | .nocfg => 4
  | .index => 5
  | .len => 6
  | .range => 7

/-- The 68-bit response word: `status` in bits 67:64, `data` in bits 63:0 (R61). -/
def responseWord (r : Response) : BitVec 68 := statusCode r.status ++ r.data

/-- The 2-bit encoding of MODE (R20, R26). -/
def modeCode : Mode → BitVec 2
  | .idle => 0
  | .hash => 1
  | .add => 2

/-- Commands admitted only while no message is open (R71). -/
def whenIdle (s : State) (k : Result) : Result := if s.mode = .idle then k else raise .seq s

/-- Commands admitted only while a message is open, in either phase (R71). -/
def whenOpen (s : State) (k : Result) : Result := if s.mode = .idle then raise .seq s else k

/-- Commands admitted in one phase only: the two end commands (R71). -/
def whenPhase (phase : Mode) (s : State) (k : Result) : Result :=
  if s.mode = phase then k else raise .seq s

/-- Estimator commands: admitted while no message is open, and only after a CONFIG has succeeded. The phase is checked
first (R71, R202, R207). -/
def whenConfigured (s : State) (k : Result) : Result :=
  whenIdle s (if s.cfgv then k else raise .nocfg s)

/-- CONFIG's operand check: `4 ≤ b ≤ 16`, else INVALID_PARAMETER (R133, R204). -/
def whenPrecision (b : Byte) (s : State) (k : Result) : Result :=
  if b.toNat < 4 ∨ 16 < b.toNat then raise .invalidParameter s else k

/-- RDREG's operand check: `i < m`, else INDEX (R139, R208). -/
def whenIndex (i : Nat) (s : State) (k : Result) : Result :=
  if s.regCount ≤ i then raise .index s else k

/-- The longest message, MAXLEN = 2^32 - 1 bytes (R7, D9). -/
def maxLen : Nat := 2 ^ 32 - 1

/-- The length check of the pushes: all `n` bytes fit or the status is LEN (R113, R114, R209). -/
def whenRoom (n : Nat) (s : State) (k : Result) : Result :=
  if maxLen < s.len.toNat + n then raise .len s else k

end Sys2Proof.Machine
end

