-- ==== Sys2Proof/Machine/Float.lean ====
section
/-! DEFINITION. Binary64 arithmetic of the estimate datapath (42_estimate.md R168 to R172). A value is the rational number it
denotes; an operation computes exactly and then rounds once, to 53 significant bits, to nearest, ties to even. R168 shows that
no result leaves the exponent range of binary64, so exponents are not bounded here (log entry 8). LN answers one of the two or
three binary64 values within a unit in the last place of the real logarithm, which one is open (R172; log entry 7). -/

namespace Sys2Proof.Machine

/-- `2^e` for any integer `e`. -/
def twoPow : Int → Rat
  | .ofNat k => mkRat (2 ^ k : Nat) 1
  | .negSucc k => mkRat 1 (2 ^ (k + 1))

/-- The binade of a non-zero `q`: the `e` with `2^e ≤ |q| < 2^(e+1)`. -/
def binade (q : Rat) : Int :=
  let e : Int := (q.num.natAbs.log2 : Int) - (q.den.log2 : Int)
  if twoPow e * mkRat q.den 1 ≤ mkRat q.num.natAbs 1 then e else e - 1

/-- The spacing of the binary64 values in the binade of `q`: one unit in the last of 53 places. -/
def ulp (q : Rat) : Rat := twoPow (binade q - 52)

/-- An exact quotient to the nearest integer, a tie to the even one. -/
def roundHalfEven (q : Rat) : Int :=
  let f := q.floor
  let r := q - mkRat f 1
  if r < mkRat 1 2 then f
  else if mkRat 1 2 < r then f + 1
  else if f % 2 = 0 then f else f + 1

/-- Round to binary64, to nearest, ties to even (R168). -/
def round64 (q : Rat) : F64 := if q = 0 then 0 else mkRat (roundHalfEven (q / ulp q)) 1 * ulp q

/-- The largest binary64 value not above `q`. -/
def down64 (q : Rat) : F64 := if q = 0 then 0 else mkRat (q / ulp q).floor 1 * ulp q

/-- The least binary64 value not below `q`. -/
def up64 (q : Rat) : F64 := -down64 (-q)

/-- `fadd` (R10) -/
def fadd (x y : F64) : F64 := round64 (x + y)
/-- `fsub` (R10) -/
def fsub (x y : F64) : F64 := round64 (x - y)
/-- `fmul` (R10) -/
def fmul (x y : F64) : F64 := round64 (x * y)
/-- `fdiv` (R10) -/
def fdiv (x y : F64) : F64 := round64 (x / y)

/-! ### The natural logarithm

`ln x = 2 artanh ((x - 1) / (x + 1))`, and artanh is enclosed between a partial sum of its series and that sum plus a bound
of the rest. `x` is first brought into [1, 2) by a power of 2, whose logarithm is a multiple of `ln 2 = 2 artanh (1/3)`. -/

/-- `z + z^3/3 + ... + z^(2n-1)/(2n-1)`. -/
def artanhSum (z : Rat) : Nat → Rat
  | 0 => 0
  | n + 1 => artanhSum z n + z ^ (2 * n + 1) / mkRat (2 * n + 1) 1

/-- A bound of what `artanhSum z n` leaves out, for `0 ≤ z < 1`. -/
def artanhRest (z : Rat) (n : Nat) : Rat := z ^ (2 * n + 1) / (1 - z * z)

/-- The number of terms: with `z ≤ 1/3` the enclosures are narrower than 2^-150 of the value. -/
def lnTerms : Nat := 48

/-- Two rationals that enclose `ln x`, for `x ≥ 1`. -/
def lnBoundsAbove (x : Rat) : Rat × Rat :=
  let k := mkRat (binade x) 1
  let t := x / twoPow (binade x)
  let z := (t - 1) / (t + 1)
  let lo := 2 * (k * artanhSum (mkRat 1 3) lnTerms + artanhSum z lnTerms)
  (lo, lo + 2 * (k * artanhRest (mkRat 1 3) lnTerms + artanhRest z lnTerms))

/-- Two rationals that enclose `ln x`, for `x > 0`; below 1 it is `-ln (1/x)`. -/
def lnBounds (x : Rat) : Rat × Rat :=
  if 1 ≤ x then lnBoundsAbove x
  else (-(lnBoundsAbove (1 / x)).2, -(lnBoundsAbove (1 / x)).1)

/-- The two binary64 neighbours of `ln x`, below and above. Should a binary64 value lie inside the enclosure, the two cannot be
told from it and it is answered as both. -/
def lnNeighbours (x : F64) : F64 × F64 :=
  let lo := down64 (lnBounds x).1
  let hi := down64 (lnBounds x).2
  if lo = hi then (lo, up64 (lnBounds x).2) else (hi, hi)

/-- LN rounded down at every argument: one admissible choice. -/
def lnDown (x : F64) : F64 := (lnNeighbours x).1

/-- LN rounded up at every argument: another. -/
def lnUp (x : F64) : F64 := (lnNeighbours x).2

/-- The value after `outer`, going on from `inner` away from zero, if it opens the next binade; else `outer`. A power of two has
a unit in the last place twice the spacing below it, so (L2) admits it from two steps away. -/
def nextBinade (inner outer : F64) : F64 :=
  if binade (outer + (outer - inner)) = binade outer then outer else outer + (outer - inner)

/-- LN rounded away from zero, and to a power of two where one is admissible: the last admissible choice. -/
def lnFar (x : F64) : F64 :=
  if 1 ≤ x then nextBinade (lnNeighbours x).1 (lnNeighbours x).2
  else nextBinade (lnNeighbours x).2 (lnNeighbours x).1

/-- The admissible choices, at every argument the same. -/
def lnChoices : List (F64 → F64) := [lnDown, lnUp, lnFar]

/-- LN (R172): at each argument one of the admissible values, and which of them is open (U2, D20). -/
def ln (x : F64) : F64 :=
  match Config.lnChoice x with
  | .below => lnDown x
  | .above => lnUp x
  | .beyond => lnFar x

end Sys2Proof.Machine
end

