-- ==== Sys2Proof/Machine/Estimate.lean ====
section
/-! DEFINITION. The cardinality estimate (42_estimate.md R160, R161, R168 to R171) and its command. -/

namespace Sys2Proof.Machine

/-- `m = 2^B` as a binary64 value, which it is exactly (R168). -/
def fM (b : Nat) : F64 := mkRat (2 ^ b : Nat) 1

/-- `2^32` (R169) -/
def f2p32 : F64 := mkRat 4294967296 1

/-- T30, the threshold of the large-range correction (R169, D22). -/
def t30 : F64 := fdiv f2p32 (mkRat 30 1)

/-- ALPHA64[B] (R169): the three decimals of R162, and its formula for every other m. -/
def alpha64 (b : Nat) : F64 :=
  if b = 4 then round64 (mkRat 673 1000)
  else if b = 5 then round64 (mkRat 697 1000)
  else if b = 6 then round64 (mkRat 709 1000)
  else fdiv (round64 (mkRat 7213 10000)) (fadd 1 (fdiv (round64 (mkRat 1079 1000)) (fM b)))

/-- `fE`, the raw estimate E0 in binary64 (R163, R168). -/
def rawF64 (b zi : Nat) : F64 :=
  fdiv (fmul (fmul (alpha64 b) (fM b)) (fM b)) (fdiv (mkRat zi 1) (mkRat (2 ^ 29 : Nat) 1))

/-- The small-range correction (R164): `fE ≤ 2.5·m` and `V > 0`. -/
def smallF64 (lnF : F64 → F64) (b v : Nat) (fE : F64) : F64 :=
  if fE ≤ mkRat 5 2 * fM b ∧ 0 < v then fmul (lnF (fdiv (fM b) (mkRat v 1))) (fM b) else fE

/-- The large-range correction (R165); `none` is RANGE_FAIL (R167). -/
def largeF64 (lnF : F64 → F64) (fE : F64) : Option F64 :=
  if t30 < fE then
    let fY := fsub 1 (fdiv fE f2p32)
    if fY ≤ 0 then none else some (-(fmul (lnF fY) f2p32))
  else some fE

/-- `trunc(fE)` as a 64-bit unsigned number (R166, R168). -/
def truncData (fE : F64) : Data := BitVec.ofNat 64 fE.floor.toNat

/-- EST_F64 with one logarithm in the small-range correction and one in the large-range correction; `none` is RANGE_FAIL. -/
def estWith (lnSmall lnLarge : F64 → F64) (b v zi : Nat) : Option Data :=
  (largeF64 lnLarge (smallF64 lnSmall b v (rawF64 b zi))).map truncData

/-- EST_F64 for a logarithm (R168). -/
def estF64 (lnF : F64 → F64) (b v zi : Nat) : Option Data := estWith lnF lnF b v zi

/-- EST, the function the hardware computes: EST_F64 with the open LN (R171). Where all admissible values of each logarithm give
one answer it is that answer, so that the open choice is asked only where it matters; `est_eq_estF64` (Laws/Estimate.lean) says
that this is `estF64 ln`. -/
def est (b v zi : Nat) : Option Data :=
  let r := estWith lnDown lnDown b v zi
  if lnChoices.all fun f => lnChoices.all fun g => estWith f g b v zi == r then r
  else estF64 ln b v zi

/-- The listed cells of the register file below m. -/
def State.liveCells (s : State) : List Host.Cell := s.m.filter fun c => c.1 < s.regCount

/-- V, the number of cells below m that hold 0: those not listed (R161; log entry 11). -/
def State.zeroCount (s : State) : Nat := s.regCount - s.liveCells.length

/-- ZI, the sum of `2^(29 - M[j])` over the cells below m: an unlisted cell gives `2^29` (R161; log entry 11). -/
def State.scaledSum (s : State) : Nat :=
  2 ^ 29 * s.zeroCount + (s.liveCells.map fun c => 2 ^ (29 - c.2.toNat)).sum

/-- Some cell below m holds more than 29, so that R161 has no integer ZI (log entry 10). -/
def State.overfull (s : State) : Bool := s.liveCells.any fun c => 29 < c.2.toNat

/-- ESTIMATE (R160): it writes no state element. -/
def execEstimate (s : State) : Result :=
  whenConfigured s
    (withCells s.regCount
      (if s.overfull then .fault .cellOutOfRange
       else match est s.b.toNat s.zeroCount s.scaledSum with
         | some r => respond r s
         | none => raise .range s))

end Sys2Proof.Machine
end

