-- ==== Sys2Proof/Machine/Operands.lean ====
section
/-! DEFINITION. Operand and result assembly (30_encoding.md R63, 20_memory.md R42, R43): unsigned, no scaling, bytes
zero-extended. -/

namespace Sys2Proof.Machine

/-- A 32-bit word from four message bytes, the first received lowest (R42). -/
def leWord (b0 b1 b2 b3 : Byte) : Word :=
  b0.setWidth 32 ||| (b1.setWidth 32 <<< 8) ||| (b2.setWidth 32 <<< 16) ||| (b3.setWidth 32 <<< 24)

/-- The four message bytes of a PUSHW operand, the earliest first: `arg[7:0]`, `[15:8]`, `[23:16]`, `[31:24]` (R43, R63). -/
def wordBytes (w : Word) : List Byte :=
  [w.extractLsb' 0 8, w.extractLsb' 8 8, w.extractLsb' 16 8, w.extractLsb' 24 8]

/-- A result word in `rsp.data`, zero-extended (R61, R63). -/
def dataOfWord (w : Word) : Data := w.setWidth 64

/-- A register value in `data[7:0]` (R63, R139). -/
def dataOfByte (v : Byte) : Data := v.setWidth 64

end Sys2Proof.Machine
end

