-- ==== Sys2Proof/Machine/Mixer.lean ====
section
/-! DEFINITION. The hash mixer (40_hash_engine.md R100 to R109): the mixing functions, the whole-message hash, and the
streaming steps that absorb one byte and finish a message. All arithmetic is on 32-bit words and wraps (R109).
In a product or sum the constant stands first: the kernel counts a literal on the right of an open term down one by one. -/

namespace Sys2Proof.Machine

/-- C1 (R100) -/
def mixC1 : Word := 0xcc9e2d51
/-- C2 (R100) -/
def mixC2 : Word := 0x1b873593
/-- ADDC (R100) -/
def mixAddc : Word := 0xe6546b64
/-- F1 (R100) -/
def mixF1 : Word := 0x85ebca6b
/-- F2 (R100) -/
def mixF2 : Word := 0xc2b2ae35

/-- `rotl32` (R9) -/
def rotl32 (x : Word) (r : Nat) : Word := (x <<< r) ||| (x >>> (32 - r))

/-- The key scramble (R101). -/
def mixk (k : Word) : Word := mixC2 * rotl32 (mixC1 * k) 15

/-- Absorption of one full block (R102). -/
def blockmix (h k : Word) : Word := mixAddc + 5 * rotl32 (h ^^^ mixk k) 13

/-- `x xor (x >> r)`, a step of the avalanche (R103). -/
def xorShift (x : Word) (r : Nat) : Word := x ^^^ (x >>> r)

/-- The avalanche finaliser (R103). -/
def fmix32 (h : Word) : Word := xorShift (mixF2 * xorShift (mixF1 * xorShift h 16) 13) 16

/-- The last word of a message's tail, absent bytes being 0; nothing is mixed for an empty tail (R104 step 3, R106, C6). -/
def mixTail (h : Word) : List Byte → Word
  | [b0] => h ^^^ mixk (leWord b0 0 0 0)
  | [b0, b1] => h ^^^ mixk (leWord b0 b1 0 0)
  | [b0, b1, b2] => h ^^^ mixk (leWord b0 b1 b2 0)
  | _ => h

/-- Steps 2 and 3 of the whole-message hash: the full blocks in order, then the tail (R104). -/
def hashBody (h : Word) : List Byte → Word
  | b0 :: b1 :: b2 :: b3 :: rest => hashBody (blockmix h (leWord b0 b1 b2 b3)) rest
  | tail => mixTail h tail

/-- The whole-message hash of at most 2^32 - 1 bytes (R104): the normative meaning of the source's `hash`. R104 gives a longer
message no meaning (U6); that its length is then taken modulo 2^32 here is the model's choice. DESIGN CHOICE, log entry 17. -/
def hash32 (seed : Word) (bytes : List Byte) : Word :=
  fmix32 (hashBody seed bytes ^^^ BitVec.ofNat 32 bytes.length)

/-- `TAIL[k] <- byte` for `k` from 0 to 2 (R105). -/
def State.setTail (s : State) (k : BitVec 2) (byte : Byte) : State :=
  { s with
    tail0 := if k = 0 then byte else s.tail0
    tail1 := if k = 1 then byte else s.tail1
    tail2 := if k = 2 then byte else s.tail2 }

/-- `absorb(byte)`: a byte joins the tail, or completes a block and is mixed in; after a block TAIL keeps its old bytes (R105). -/
def State.absorb (s : State) (byte : Byte) : State :=
  if s.tcnt = 3 then
    { s with h1 := blockmix s.h1 (leWord s.tail0 s.tail1 s.tail2 byte), tcnt := 0, len := s.len + 1 }
  else
    { s.setTail s.tcnt byte with tcnt := s.tcnt + 1, len := s.len + 1 }

/-- The meaningful bytes of TAIL: `TAIL[0 .. TCNT - 1]` (R28). -/
def State.tailBytes (s : State) : List Byte := [s.tail0, s.tail1, s.tail2].take s.tcnt.toNat

/-- `finalize()`: the hash of the open message; it writes nothing (R106). -/
def State.finalize (s : State) : Word := fmix32 (mixTail s.h1 s.tailBytes ^^^ s.len)

end Sys2Proof.Machine
end

