-- ==== Sys2Proof/Machine/Rank.lean ====
section
/-! DEFINITION. The register file's index, the rank ("rho", a leading-zero count plus one) and the maximum update
(41_estimator_regfile.md R130 to R132). -/

namespace Sys2Proof.Machine

/-- `index(h, B)`: the top B bits of the hash (R130). -/
def regIndex (h : Word) (b : BitVec 5) : Nat := (h >>> (32 - b.toNat)).toNat

/-- `rho(w, n)`: for `w` of n bits, n + 1 when `w` is 0, else n minus the position of its highest set bit (R131). -/
def rho (w n : Nat) : Nat := if w = 0 then n + 1 else n - Nat.log2 w

/-- `rank(h, B) = rho(h[31-B : 0], 32 - B)` (R131). -/
def rank (h : Word) (b : BitVec 5) : Nat := rho (h.toNat % 2 ^ (32 - b.toNat)) (32 - b.toNat)

/-- `update(h)` on the register file: the cell at the index becomes the rank if that is larger (R132, R50). -/
def updateCells (m : List Host.Cell) (h : Word) (b : BitVec 5) : List Host.Cell :=
  if (Memory.read m (regIndex h b)).toNat < rank h b then
    Memory.write m (regIndex h b) (BitVec.ofNat 8 (rank h b))
  else m

end Sys2Proof.Machine
end

