-- ==== Sys2Proof/Machine/Estimator.lean ====
section
/-! DEFINITION. The commands of the register file (41_estimator_regfile.md R133 to R139). -/

namespace Sys2Proof.Machine

/-- The estimator a successful CONFIG constructs: B, ESEED, cells `0 .. 2^b - 1` zero, CFGV (R133). -/
def State.construct (s : State) (b : Byte) (seed : Word) : State :=
  { s with b := b.setWidth 5, eseed := seed, m := Memory.zeroBelow s.m (2 ^ b.toNat), cfgv := true }

/-- CONFIG b, seed (R133): a failed construction changes nothing, a successful one replaces the old estimator (D11). -/
def execConfig (b : Byte) (seed : Word) (s : State) : Result :=
  whenIdle s (whenPrecision b s (respond 0 (s.construct b seed)))

/-- ABEGIN (R134): ESEED is sampled here. -/
def execAbegin (s : State) : Result := whenConfigured s (respond 0 (s.openMessage s.eseed .add))

/-- AEND (R135): hash the item, update one cell, answer nothing. CFGV is not read (I-3 of R31). -/
def execAend (s : State) : Result :=
  whenPhase .add s
    (withCells (regIndex s.finalize s.b + 1)
      (respond 0 { s with m := updateCells s.m s.finalize s.b }.closeMessage))

/-- CLEAR (R136): cells `0 .. 2^B - 1` become 0, nothing else changes. -/
def execClear (s : State) : Result :=
  whenConfigured s
    (withCells s.regCount (respond 0 { s with m := Memory.zeroBelow s.m s.regCount }))

/-- GETM (R137): the register count 2^B (D28). -/
def execGetm (s : State) : Result := whenConfigured s (respond (BitVec.ofNat 64 s.regCount) s)

/-- GETB (R138): the precision. -/
def execGetb (s : State) : Result := whenConfigured s (respond (s.b.setWidth 64) s)

/-- RDREG index (R139): one cell below m. -/
def execRdreg (index : Word) (s : State) : Result :=
  whenConfigured s
    (whenIndex index.toNat s
      (withCells (index.toNat + 1) (respond (dataOfByte (Memory.read s.m index.toNat)) s)))

end Sys2Proof.Machine
end

