-- ==== Sys2Proof/Machine/HashEngine.lean ====
section
/-! DEFINITION. The commands of the hash engine (40_hash_engine.md R110 to R116). -/

namespace Sys2Proof.Machine

/-- SETSEED seed (R110): HSEED alone is written. -/
def execSetseed (seed : Word) (s : State) : Result :=
  whenIdle s (respond 0 { s with hseed := seed })

/-- GETSEED (R111). -/
def execGetseed (s : State) : Result := whenIdle s (respond (dataOfWord s.hseed) s)

/-- HBEGIN (R112): HSEED is sampled here, once for the whole message (R234). -/
def execHbegin (s : State) : Result := whenIdle s (respond 0 (s.openMessage s.hseed .hash))

/-- HEND (R115): the hash is the answer. -/
def execHend (s : State) : Result :=
  whenPhase .hash s (respond (dataOfWord s.finalize) s.closeMessage)

/-- PUSHB byte (R113), in either phase. -/
def execPushb (byte : Byte) (s : State) : Result :=
  whenOpen s (whenRoom 1 s (respond 0 (s.absorb byte)))

/-- PUSHW w (R114): all four bytes or none, at any TCNT. -/
def execPushw (w : Word) (s : State) : Result :=
  whenOpen s (whenRoom 4 s (respond 0 ((wordBytes w).foldl State.absorb s)))

/-- MABORT (R116): the open message is dropped, with no register update. -/
def execMabort (s : State) : Result := whenOpen s (respond 0 s.closeMessage)

end Sys2Proof.Machine
end

