-- ==== Sys2Proof/Machine/Dispatch.lean ====
section
/-! DEFINITION. exec: one arm per command of spec/opcode_table.json, each a direct call of its meaning. -/

namespace Sys2Proof.Machine

def exec (i : Instr) (s : State) : Host.Outcome State Fault Refusal :=
  match i with
  | .setseed seed => Sys2Proof.Machine.execSetseed seed s
  | .getseed => Sys2Proof.Machine.execGetseed s
  | .hbegin => Sys2Proof.Machine.execHbegin s
  | .hend => Sys2Proof.Machine.execHend s
  | .pushb byte => Sys2Proof.Machine.execPushb byte s
  | .pushw w => Sys2Proof.Machine.execPushw w s
  | .mabort => Sys2Proof.Machine.execMabort s
  | .config b seed => Sys2Proof.Machine.execConfig b seed s
  | .abegin => Sys2Proof.Machine.execAbegin s
  | .aend => Sys2Proof.Machine.execAend s
  | .estimate => Sys2Proof.Machine.execEstimate s
  | .clear => Sys2Proof.Machine.execClear s
  | .getm => Sys2Proof.Machine.execGetm s
  | .getb => Sys2Proof.Machine.execGetb s
  | .rdreg index => Sys2Proof.Machine.execRdreg index s

end Sys2Proof.Machine
end

