-- ==== Sys2Proof/Machine/Step.lean ====
section
/-! DEFINITION. One step: the block takes the next event of the command channel (70_reset_and_hazards.md R240, 20 R47). -/

namespace Sys2Proof.Machine

/-- A command word: decode it, then execute the command, or answer ILLEGAL (R65, R240). -/
def runWord (w : CmdWord) (s : State) : Host.Outcome State Fault Refusal :=
  match decode w with
  | .ok i => exec i s
  | .error _ => illegalCommand s

/-- One step. With nothing to do the block holds its state (R215; log entry 16). An accepted event leaves the command channel
before it takes effect. -/
def step (s : State) : Host.Outcome State Fault Refusal :=
  match s.cmdIn with
  | [] => .next s
  | .command w :: rest => runWord w { s with cmdIn := rest }
  | .reset :: rest => .next { s with cmdIn := rest }.resetEvent

/-- The host sends the table row's word next (log entry 1): the next step runs exactly it. -/
def State.withFetchWord (s : State) (nbits w : Nat) : State := s.sendFirst (tableWord nbits w)

end Sys2Proof.Machine
end

