-- ==== Sys2Proof/Machine/Macros.lean ====
section
/-! DEFINITION. The macro-operations of 30_encoding.md R70: the fixed command sequence of each API call of the source. They are
the host's, not commands of the block. -/

namespace Sys2Proof.Machine

/-- The API calls of the source (R70). `getRegisters` takes the register count m it reads. -/
inductive Macro where
  | hash (bytes : List Byte)
  | setSeed (seed : Word)
  | getSeed
  | new (b : Byte) (seed : Word)
  | add (item : List Byte)
  | estimate
  | clear
  | getM
  | getB
  | getRegisters (m : Nat)
deriving DecidableEq, Repr

/-- One PUSHB per byte (R70). -/
def pushes (bytes : List Byte) : List Instr := bytes.map .pushb

/-- The same bytes with every four consecutive ones from the start in one PUSHW, as R70 allows. -/
def packedPushes : List Byte → List Instr
  | b0 :: b1 :: b2 :: b3 :: rest => .pushw (leWord b0 b1 b2 b3) :: packedPushes rest
  | tail => pushes tail

/-- `HASHMSG` (R70) -/
def hashMsg (bytes : List Byte) : List Instr := .hbegin :: (pushes bytes ++ [.hend])

/-- `ADDMSG` (R70) -/
def addMsg (item : List Byte) : List Instr := .abegin :: (pushes item ++ [.aend])

/-- The expansion of a macro (R70). -/
def Macro.expand : Macro → List Instr
  | .hash bytes => hashMsg bytes
  | .setSeed seed => [.setseed seed]
  | .getSeed => [.getseed]
  | .new b seed => [.config b seed]
  | .add item => addMsg item
  | .estimate => [.estimate]
  | .clear => [.clear]
  | .getM => [.getm]
  | .getB => [.getb]
  | .getRegisters m => (List.range m).map fun j => .rdreg (BitVec.ofNat 32 j)

end Sys2Proof.Machine
end

