-- ==== Sys2Proof/Machine/Assembler.lean ====
section
/-! DEFINITION. The assembler's source syntax (30_encoding.md R69) and the text forms of the macros HASHMSG and ADDMSG (R70).
It is the spec's listing notation, not part of the block. What R69 does not say of blanks and of letters is log entry 14. -/

namespace Sys2Proof.Machine

/-- Why a line is an assembler error. -/
inductive AsmError where
  /-- the first word is neither a mnemonic of R64 nor HASHMSG or ADDMSG -/
  | unknownMnemonic
  /-- an operand is neither a decimal nor a `0x` hexadecimal number, nor (for a macro) a text of ASCII characters in quotes -/
  | badOperand
  /-- too many or too few operands, or one outside its field's range -/
  | outOfRange
deriving DecidableEq, Repr

/-- The mnemonic as the source writes it, in upper case (R69). -/
def mnemonicText : Mnemonic → String
  | .SETSEED => "SETSEED"
  | .GETSEED => "GETSEED"
  | .HBEGIN => "HBEGIN"
  | .HEND => "HEND"
  | .PUSHB => "PUSHB"
  | .PUSHW => "PUSHW"
  | .MABORT => "MABORT"
  | .CONFIG => "CONFIG"
  | .ABEGIN => "ABEGIN"
  | .AEND => "AEND"
  | .ESTIMATE => "ESTIMATE"
  | .CLEAR => "CLEAR"
  | .GETM => "GETM"
  | .GETB => "GETB"
  | .RDREG => "RDREG"

/-- The command of a well-formed assembler line (R69): its operands in the order of the table. -/
def instrOfLine (l : AsmLine) : Option Instr :=
  if l.wellFormed then
    match l.mnemonic, l.operands with
    | .SETSEED, [seed] => some (.setseed (BitVec.ofNat 32 seed))
    | .GETSEED, [] => some .getseed
    | .HBEGIN, [] => some .hbegin
    | .HEND, [] => some .hend
    | .PUSHB, [byte] => some (.pushb (BitVec.ofNat 8 byte))
    | .PUSHW, [w] => some (.pushw (BitVec.ofNat 32 w))
    | .MABORT, [] => some .mabort
    | .CONFIG, [b, seed] => some (.config (BitVec.ofNat 8 b) (BitVec.ofNat 32 seed))
    | .ABEGIN, [] => some .abegin
    | .AEND, [] => some .aend
    | .ESTIMATE, [] => some .estimate
    | .CLEAR, [] => some .clear
    | .GETM, [] => some .getm
    | .GETB, [] => some .getb
    | .RDREG, [index] => some (.rdreg (BitVec.ofNat 32 index))
    | _, _ => none
  else none

/-- The operands of a command, in the order the assembler writes them (R69). -/
def operandsOf : Instr → List Nat
  | .setseed seed => [seed.toNat]
  | .pushb byte => [byte.toNat]
  | .pushw w => [w.toNat]
  | .config b seed => [b.toNat, seed.toNat]
  | .rdreg index => [index.toNat]
  | .getseed | .hbegin | .hend | .mabort | .abegin | .aend | .estimate | .clear | .getm | .getb => []

/-- A blank of a source line. -/
def isBlank (c : Char) : Bool := c == ' ' || c == '\t' || c == '\r'

/-- Drop the blanks around a token. -/
def trimBlanks (cs : List Char) : List Char :=
  ((cs.dropWhile isBlank).reverse.dropWhile isBlank).reverse

/-- The value of a hexadecimal digit, in either case. -/
def hexDigit (c : Char) : Option Nat :=
  let n := c.toNat
  if 48 ≤ n ∧ n ≤ 57 then some (n - 48)
  else if 65 ≤ n ∧ n ≤ 70 then some (n - 55)
  else if 97 ≤ n ∧ n ≤ 102 then some (n - 87)
  else none

/-- Digits of a base, most significant first, onto what has been read so far. -/
def digitsValue (base : Nat) : List Char → Nat → Option Nat
  | [], acc => some acc
  | c :: cs, acc =>
    match hexDigit c with
    | some d => if d < base then digitsValue base cs (acc * base + d) else none
    | none => none

/-- A number, decimal or `0x` hexadecimal (R69). -/
def readNumber : List Char → Option Nat
  | [] => none
  | ['0', 'x'] => none
  | '0' :: 'x' :: ds => digitsValue 16 ds 0
  | ds => digitsValue 10 ds 0

/-- Cut a text at its commas. -/
def splitCommas : List Char → List (List Char)
  | [] => [[]]
  | ',' :: cs => [] :: splitCommas cs
  | c :: cs =>
    match splitCommas cs with
    | t :: ts => (c :: t) :: ts
    | [] => [[c]]

/-- The operands of a line: none, or numbers separated by commas (R69). -/
def readOperands (cs : List Char) : Option (List Nat) :=
  match trimBlanks cs with
  | [] => some []
  | text => (splitCommas text).mapM fun t => readNumber (trimBlanks t)

/-- A text in quotes stands for its bytes in the order written, one byte per 7-bit character, no terminator (R70). -/
def readText (cs : List Char) : Option (List Byte) :=
  match (trimBlanks cs).dropLast, (trimBlanks cs).getLast? with
  | '\x22' :: body, some '\x22' =>
    if body.all fun c => c.toNat < 128 && c != '\x22' then some (body.map fun c => BitVec.ofNat 8 c.toNat)
    else none
  | _, _ => none

/-- The bytes of a macro: a text in quotes, or numbers from 0 to 255 (R70). -/
def readBytes (cs : List Char) : Except AsmError (List Byte) :=
  match readText cs with
  | some bytes => .ok bytes
  | none =>
    match readOperands cs with
    | none => .error .badOperand
    | some ns => if ns.all (· < 256) then .ok (ns.map (BitVec.ofNat 8)) else .error .outOfRange

/-- All mnemonics, in the order of R64. -/
def allMnemonics : List Mnemonic := opcodeMap.map fun r => r.mnemonic

/-- The commands of one source line (R69, R70): none for an empty line, one for a command, the expansion for a macro. A `;`
starts a comment. -/
def assembleLine (line : List Char) : Except AsmError (List Instr) :=
  let code := trimBlanks (line.takeWhile (· != ';'))
  let word := code.takeWhile fun c => !isBlank c
  let rest := code.drop word.length
  if code = [] then .ok []
  else if word = "HASHMSG".toList then (readBytes rest).map hashMsg
  else if word = "ADDMSG".toList then (readBytes rest).map addMsg
  else
    match allMnemonics.find? fun k => (mnemonicText k).toList == word with
    | none => .error .unknownMnemonic
    | some k =>
      match readOperands rest with
      | none => .error .badOperand
      | some ns =>
        match instrOfLine ⟨k, ns⟩ with
        | some i => .ok [i]
        | none => .error .outOfRange

end Sys2Proof.Machine
end

