-- ==== Sys2Proof/Safety.lean ====
section
/-! DEFINITION. The terms claims are stated in: the invariants of the reachable states (10_state.md R31), what admission and
error reporting look like over all commands (30 R71, 60 R201), runs of several commands, the register statistics cell by cell
(42 R161), and the estimate over exact reals (42 R162 to R167). -/

namespace Sys2Proof.Machine

/-! ### Reachable states -/

/-- The invariants I-1 to I-5 of R31 (I-6 holds by MODE's type), and the canonical form of the register file. -/
structure Invariants (s : State) : Prop where
  /-- the register file is in canonical form -/
  cells : Memory.wf s.m = true
  /-- (I-1) -/
  precision : s.cfgv = true → 4 ≤ s.b.toNat ∧ s.b.toNat ≤ 16
  /-- (I-2) -/
  ranks : s.cfgv = true → ∀ j, j < s.regCount → (Memory.read s.m j).toNat ≤ 33 - s.b.toNat
  /-- (I-3) -/
  adding : s.mode = .add → s.cfgv = true
  /-- (I-4) -/
  tailCount : s.mode ≠ .idle → s.tcnt.toNat = s.len.toNat % 4
  /-- (I-5) -/
  idle : s.mode = .idle →
    s.h1 = 0 ∧ s.tail0 = 0 ∧ s.tail1 = 0 ∧ s.tail2 = 0 ∧ s.tcnt = 0 ∧ s.len = 0

/-- The state after `n` steps, if no step stops. -/
def stepsTo : Nat → State → Option State
  | 0, s => some s
  | n + 1, s =>
    match step s with
    | .next t => stepsTo n t
    | .fault _ => none
    | .refused _ => none

/-! ### Admission and statuses over all commands -/

/-- The table of R71: the phases in which a command is admitted. -/
def admittedIn : Instr → Mode → Bool
  | .pushb _, phase | .pushw _, phase | .mabort, phase => phase != .idle
  | .hend, phase => phase == .hash
  | .aend, phase => phase == .add
  | .setseed _, phase | .getseed, phase | .hbegin, phase | .config _ _, phase | .abegin, phase
  | .estimate, phase | .clear, phase | .getm, phase | .getb, phase | .rdreg _, phase => phase == .idle

/-- The last column of R71: the commands that need CFGV = 1. -/
def needsConfig : Instr → Bool
  | .abegin | .estimate | .clear | .getm | .getb | .rdreg _ => true
  | .setseed _ | .getseed | .hbegin | .hend | .pushb _ | .pushw _ | .mabort | .config _ _ | .aend => false

/-- The commands whose response carries a result (R61, R63): every other one answers data 0. -/
def hasResult : Instr → Bool
  | .getseed | .hend | .estimate | .getm | .getb | .rdreg _ => true
  | .setseed _ | .hbegin | .pushb _ | .pushw _ | .mabort | .config _ _ | .abegin | .aend | .clear => false

/-- The condition of a command's own check, the last column of R201, with the status it raises. -/
def ownCheck : Instr → State → Option Status
  | .pushb _, s => if s.len.toNat = 2 ^ 32 - 1 then some .len else none
  | .pushw _, s => if 2 ^ 32 - 5 < s.len.toNat then some .len else none
  | .config b _, _ => if b.toNat < 4 ∨ 16 < b.toNat then some .invalidParameter else none
  | .rdreg i, s => if 2 ^ s.b.toNat ≤ i.toNat then some .index else none
  | .estimate, s => if est s.b.toNat s.zeroCount s.scaledSum = none then some .range else none
  | .setseed _, _ | .getseed, _ | .hbegin, _ | .hend, _ | .mabort, _ | .abegin, _ | .aend, _ | .clear, _
  | .getm, _ | .getb, _ => none

/-- The status of a command in a state, by the priority of R202: the phase, then CFGV, then the command's own check. -/
def statusOf (i : Instr) (s : State) : Status :=
  if admittedIn i s.mode = false then .seq
  else if needsConfig i = true ∧ s.cfgv = false then .nocfg
  else (ownCheck i s).getD .ok

/-! ### Encodings, field by field -/

/-- Every word of this opcode, by its fields, where the command has no operand (format N of 30 R62). -/
def DecodesN (op : Byte) (i : Instr) : Prop :=
  ∀ (aux : Byte) (arg : Word), decode (cmdWord op aux arg) =
    if aux ≠ 0 then .error .auxNotZero else if arg ≠ 0 then .error .argNotZero else .ok i

/-- Every word of this opcode, by its fields, where `arg` is the operand (format A). -/
def DecodesA (op : Byte) (i : Word → Instr) : Prop :=
  ∀ (aux : Byte) (arg : Word), decode (cmdWord op aux arg) =
    if aux ≠ 0 then .error .auxNotZero else .ok (i arg)

/-- Every word of this opcode, by its fields, where `aux` is the operand (format X). -/
def DecodesX (op : Byte) (i : Byte → Instr) : Prop :=
  ∀ (aux : Byte) (arg : Word), decode (cmdWord op aux arg) =
    if arg ≠ 0 then .error .argNotZero else .ok (i aux)

/-- Every word of this opcode, by its fields, where both are operands (format XA). -/
def DecodesXA (op : Byte) (i : Byte → Word → Instr) : Prop :=
  ∀ (aux : Byte) (arg : Word), decode (cmdWord op aux arg) = .ok (i aux arg)

/-! ### Runs -/

/-- Run commands one after the other, stopping at a fault or refusal (R47). -/
def runAll : List Instr → State → Result
  | [], s => .next s
  | i :: is, s =>
    match exec i s with
    | .next t => runAll is t
    | r => r

/-- OK with data 0, what a command without a result answers (R61). -/
def okZero : Response := ⟨.ok, 0⟩

/-- A state with one more response and nothing else changed: what every refused command and every read leaves (R203, R45). -/
def State.only (s : State) (st : Status) (d : Data) : State := { s with rspOut := s.rspOut ++ [⟨st, d⟩] }

/-- One `add` on the register file (R132, R135). No command adds an item of 2^32 bytes or more (log entry 17). -/
def addItem (seed : Word) (b : BitVec 5) (m : List Host.Cell) (item : List Byte) : List Host.Cell :=
  updateCells m (hash32 seed item) b

/-! ### What reset leaves unspecified -/

/-- Two states that differ at most in what no response may depend on (U3, U4): before a CONFIG the contents of B, ESEED and M,
after it the cells from m on. -/
structure SameVisible (s t : State) : Prop where
  hseed : s.hseed = t.hseed
  cfgv : s.cfgv = t.cfgv
  mode : s.mode = t.mode
  h1 : s.h1 = t.h1
  tail0 : s.tail0 = t.tail0
  tail1 : s.tail1 = t.tail1
  tail2 : s.tail2 = t.tail2
  tcnt : s.tcnt = t.tcnt
  len : s.len = t.len
  cmdIn : s.cmdIn = t.cmdIn
  rspOut : s.rspOut = t.rspOut
  estimator : s.cfgv = true → s.b = t.b ∧ s.eseed = t.eseed ∧
    ∀ j, j < s.regCount → Memory.read s.m j = Memory.read t.m j

/-! ### The statistics cell by cell, and the estimate over exact reals -/

/-- V of R161: the number of `j < m` with `M[j] = 0`. -/
def zeroCells (s : State) : Nat :=
  ((List.range s.regCount).filter fun j => Memory.read s.m j = 0).length

/-- ZI of R161: the sum over `j < m` of `2^(29 - M[j])`. -/
def cellSum (s : State) : Nat :=
  ((List.range s.regCount).map fun j => 2 ^ (29 - (Memory.read s.m j).toNat)).sum

/-- α(m) of R162, with `m = 2^b`, its decimals read as exact fractions. -/
noncomputable def alphaReal (b : Nat) : ℝ :=
  if b = 4 then 673 / 1000
  else if b = 5 then 697 / 1000
  else if b = 6 then 709 / 1000
  else (7213 / 10000) / (1 + (1079 / 1000) / 2 ^ b)

/-- E0 of R163. -/
noncomputable def e0Real (b zi : Nat) : ℝ := alphaReal b * (2 ^ b) ^ 2 * 2 ^ 29 / zi

open Classical in
/-- E1 of R164. -/
noncomputable def e1Real (b v zi : Nat) : ℝ :=
  if e0Real b zi ≤ 5 / 2 * 2 ^ b ∧ 0 < v then 2 ^ b * Real.log (2 ^ b / v) else e0Real b zi

open Classical in
/-- E2 of R165, where `E1 < 2^32`. -/
noncomputable def e2Real (b v zi : Nat) : ℝ :=
  if 2 ^ 32 / 30 < e1Real b v zi then -(2 ^ 32) * Real.log (1 - e1Real b v zi / 2 ^ 32) else e1Real b v zi

/-- EST_REAL of R166, where `E1 < 2^32`. -/
noncomputable def estReal (b v zi : Nat) : Data := BitVec.ofNat 64 ⌊e2Real b v zi⌋₊

/-- The statistics a legal register file can have (R161): `V ≤ m` and `V·2^29 ≤ ZI ≤ m·2^29`, `ZI` not 0. -/
def legalStats (b v zi : Nat) : Prop :=
  4 ≤ b ∧ b ≤ 16 ∧ v ≤ 2 ^ b ∧ v * 2 ^ 29 ≤ zi ∧ zi ≤ 2 ^ b * 2 ^ 29 ∧ 0 < zi

end Sys2Proof.Machine
end

