-- ==== Sys2Proof/Certificates/Slice0/Obligations.lean ====
section
/-! DEFINITION. What is claimed of the HMLL core. Each statement's docstring names the rule it formalises. -/

open Sys2Proof Sys2Proof.Machine

/-! ### Encoding -/

/-- 30 R60, R62 to R65: decoding a command's word gives the command, with every operand at every value. -/
def Obligations.DecodeInvertsEncode : Prop :=
  ∀ i : Instr, decode (encode i) = .ok i

/-- 30 R65, R66: a word that decodes is the one word of its command, so no bit of it is ignored. -/
def Obligations.EncodeInvertsDecode : Prop :=
  ∀ (w : CmdWord) (i : Instr), decode w = .ok i → encode i = w

/-- 30 R62: "A word selects a command when `(cmd and mask) = match` for that command's row"; a word no row selects decodes to
no command. -/
def Obligations.DecodeFollowsOpcodeMap : Prop :=
  ∀ w : CmdWord,
    (∀ r ∈ opcodeMap, r.selects w = true →
      ∃ i, decode w = .ok i ∧ mnemonicOf i = r.mnemonic ∧ encode i = w) ∧
    ((∀ r ∈ opcodeMap, r.selects w = false) → ∃ e, decode w = .error e)

/-- Words written out in the examples of 40 R110, R113, R114, 41 R133, R139 and 95 section 4, each beside its command. -/
def Obligations.SpecWordsDecode : Prop :=
  decode 0x01000000002A#48 = .ok (.setseed 42) ∧
  decode 0x086100000000#48 = .ok (.pushb 0x61) ∧
  decode 0x090064636261#48 = .ok (.pushw 0x64636261) ∧
  decode 0x100E0000002A#48 = .ok (.config 14 42) ∧
  decode 0x17000000000B#48 = .ok (.rdreg 11) ∧
  decode 0x130000000000#48 = .ok .estimate ∧
  decode 0x000000000000#48 = .error .unknownOpcode ∧
  decode 0x130100000000#48 = .error .auxNotZero ∧
  decode 0x080000000100#48 = .error .argNotZero

/-- 30 R69: "An operand outside its field's range cannot be encoded and is an assembler error"; every other line is the
command with its mnemonic and operands, and every command has such a line. -/
def Obligations.AssemblerLinesAreCommands : Prop :=
  (∀ l : AsmLine, l.wellFormed = true →
    ∃ i, instrOfLine l = some i ∧ mnemonicOf i = l.mnemonic ∧ operandsOf i = l.operands) ∧
  (∀ l : AsmLine, l.wellFormed = false → instrOfLine l = none) ∧
  (∀ i : Instr, instrOfLine ⟨mnemonicOf i, operandsOf i⟩ = some i)

/-! ### Steps, reset and responses -/

/-- 30 R65, 70 R240: an accepted word that decodes is executed as its command; the step adds only that the word leaves the
command channel. -/
def Obligations.StepRunsDecodedCommand : Prop :=
  ∀ (s : State) (w : CmdWord) (rest : List HostEvent) (i : Instr),
    s.cmdIn = .command w :: rest → decode w = .ok i → step s = exec i { s with cmdIn := rest }

/-- 60 R205: an illegal word is answered with ILLEGAL whatever MODE and CFGV are, and disturbs nothing. -/
def Obligations.IllegalWordDisturbsNothing : Prop :=
  ∀ (s : State) (w : CmdWord) (rest : List HostEvent),
    s.cmdIn = .command w :: rest → w.legal = false →
      step s = .next { s with cmdIn := rest, rspOut := s.rspOut ++ [⟨.illegal, 0⟩] }

/-- 70 R230: the reset event gives the reset state whatever the state was, and produces no response. -/
def Obligations.ResetEventGivesResetState : Prop :=
  ∀ (s : State) (rest : List HostEvent), s.cmdIn = .reset :: rest →
    ∃ t, step s = .next t ∧ t.cfgv = false ∧ t.mode = .idle ∧ t.h1 = 0 ∧ t.tail0 = 0 ∧ t.tail1 = 0 ∧
      t.tail2 = 0 ∧ t.tcnt = 0 ∧ t.len = 0 ∧ t.hseed = Config.seedDefault ∧
      t.rspOut = s.rspOut

/-- 10 R36: the values the spec gives for reset. -/
def Obligations.ResetValues : Prop :=
  State.reset.cfgv = false ∧ State.reset.mode = .idle ∧ State.reset.h1 = 0 ∧ State.reset.tail0 = 0 ∧
  State.reset.tail1 = 0 ∧ State.reset.tail2 = 0 ∧ State.reset.tcnt = 0 ∧ State.reset.len = 0 ∧
  State.reset.hseed = Config.seedDefault

/-- 60 R215: between commands the block holds its state. That the step then answers the same state is the model's choice
(log entry 16). -/
def Obligations.NothingToDoHoldsState : Prop :=
  ∀ s : State, s.cmdIn = [] → step s = .next s

/-- 30 R61: exactly one response per command; its data is 0 unless the status is OK and the command has a result; the fields of
the response word. -/
def Obligations.OneResponsePerCommand : Prop :=
  (∀ (i : Instr) (s t : State), exec i s = .next t →
    t.cmdIn = s.cmdIn ∧
      ∃ r : Response, t.rspOut = s.rspOut ++ [r] ∧ (r.data ≠ 0 → r.status = .ok ∧ hasResult i = true)) ∧
  (∀ r : Response,
    (responseWord r).extractLsb' 64 4 = statusCode r.status ∧ (responseWord r).extractLsb' 0 64 = r.data) ∧
  (∀ st : Status, (statusCode st).toNat ≤ 7 ∧ (statusCode st = 0 ↔ st = .ok))

/-- 60 R203: a word that is answered with an error status, ILLEGAL among them, changes no state element and answers data 0. -/
def Obligations.ErrorChangesNothing : Prop :=
  ∀ (s t : State) (w : CmdWord) (rest : List HostEvent) (r : Response),
    s.cmdIn = .command w :: rest → step s = .next t → t.rspOut = s.rspOut ++ [r] → r.status ≠ .ok →
      t = { s with cmdIn := rest, rspOut := s.rspOut ++ [⟨r.status, 0⟩] }

/-- 60 R201, R202: which status a word is answered with: ILLEGAL from decoding first, then the phase, then CFGV, then the
command's own check. -/
def Obligations.StatusFollowsPriority : Prop :=
  ∀ (s : State) (w : CmdWord) (rest : List HostEvent), Invariants s → s.cmdIn = .command w :: rest →
    (w.legal = false → ∃ t d, step s = .next t ∧ t.rspOut = s.rspOut ++ [⟨.illegal, d⟩]) ∧
    (w.legal = true → ∃ i t d, decode w = .ok i ∧ step s = .next t ∧
      t.rspOut = s.rspOut ++ [⟨statusOf i s, d⟩])

/-- 30 R71: the admission table. A command out of its phase answers SEQ; an estimator command in its phase before a CONFIG
answers NOCFG; nothing else changes; a command that is admitted answers neither. -/
def Obligations.AdmissionTable : Prop :=
  ∀ (i : Instr) (s : State),
    (admittedIn i s.mode = false → exec i s = .next (s.only .seq 0)) ∧
    (admittedIn i s.mode = true → needsConfig i = true → s.cfgv = false →
      exec i s = .next (s.only .nocfg 0)) ∧
    (admittedIn i s.mode = true → (needsConfig i = true → s.cfgv = true) →
      ∀ (t : State) (r : Response), exec i s = .next t → t.rspOut = s.rspOut ++ [r] →
        r.status ≠ .seq ∧ r.status ≠ .nocfg)

/-! ### The hash engine's commands -/

/-- 40 R110: SETSEED. -/
def Obligations.SetseedWritesHseed : Prop :=
  DecodesA 0x01 .setseed ∧
  (∀ (seed : Word) (s : State), s.mode = .idle →
    exec (.setseed seed) s = .next { s with hseed := seed, rspOut := s.rspOut ++ [okZero] }) ∧
  (∀ (seed : Word) (s : State), s.mode ≠ .idle → exec (.setseed seed) s = .next (s.only .seq 0))

/-- 40 R111: GETSEED. -/
def Obligations.GetseedReadsHseed : Prop :=
  DecodesN 0x02 .getseed ∧
  (∀ s : State, s.mode = .idle → exec .getseed s = .next (s.only .ok (s.hseed.setWidth 64))) ∧
  (∀ s : State, s.mode ≠ .idle → exec .getseed s = .next (s.only .seq 0))

/-- 40 R112: HBEGIN samples HSEED and opens a HASH message. -/
def Obligations.HbeginOpensHashMessage : Prop :=
  DecodesN 0x03 .hbegin ∧
  (∀ s : State, s.mode = .idle →
    exec .hbegin s = .next { s with
      h1 := s.hseed, tcnt := 0, len := 0, mode := .hash, rspOut := s.rspOut ++ [okZero] }) ∧
  (∀ s : State, s.mode ≠ .idle → exec .hbegin s = .next (s.only .seq 0))

/-- 40 R113, R105: PUSHB absorbs one byte: it joins the tail, or it completes a block. -/
def Obligations.PushbAbsorbsOneByte : Prop :=
  DecodesX 0x08 .pushb ∧
  (∀ (byte : Byte) (s : State), s.mode ≠ .idle → s.len.toNat < 2 ^ 32 - 1 → s.tcnt ≠ 3 →
    exec (.pushb byte) s = .next { s with
      tail0 := if s.tcnt = 0 then byte else s.tail0
      tail1 := if s.tcnt = 1 then byte else s.tail1
      tail2 := if s.tcnt = 2 then byte else s.tail2
      tcnt := s.tcnt + 1, len := s.len + 1, rspOut := s.rspOut ++ [okZero] }) ∧
  (∀ (byte : Byte) (s : State), s.mode ≠ .idle → s.len.toNat < 2 ^ 32 - 1 → s.tcnt = 3 →
    exec (.pushb byte) s = .next { s with
      h1 := blockmix s.h1 (leWord s.tail0 s.tail1 s.tail2 byte)
      tcnt := 0, len := s.len + 1, rspOut := s.rspOut ++ [okZero] }) ∧
  (∀ (byte : Byte) (s : State), s.mode = .idle → exec (.pushb byte) s = .next (s.only .seq 0)) ∧
  (∀ (byte : Byte) (s : State), s.mode ≠ .idle → s.len.toNat = 2 ^ 32 - 1 →
    exec (.pushb byte) s = .next (s.only .len 0))

/-- 40 R114: PUSHW absorbs four bytes, `w[7:0]` first, at any TCNT: with `c` bytes in the tail, `4 - c` of them complete the
block, the others become the new tail, TCNT stays `c`; all four or none. -/
def Obligations.PushwAbsorbsFourBytes : Prop :=
  DecodesA 0x09 .pushw ∧
  (∀ (w : Word) (s : State) (w0 w1 w2 w3 : Byte), s.mode ≠ .idle → s.len.toNat ≤ 2 ^ 32 - 1 - 4 →
    w0 = w.extractLsb' 0 8 → w1 = w.extractLsb' 8 8 → w2 = w.extractLsb' 16 8 → w3 = w.extractLsb' 24 8 →
      (s.tcnt = 0 → exec (.pushw w) s = .next { s with
        h1 := blockmix s.h1 w
        tail0 := w0, tail1 := w1, tail2 := w2, len := s.len + 4, rspOut := s.rspOut ++ [okZero] }) ∧
      (s.tcnt = 1 → exec (.pushw w) s = .next { s with
        h1 := blockmix s.h1 (leWord s.tail0 w0 w1 w2)
        tail0 := w3, tail1 := w0, tail2 := w1, len := s.len + 4, rspOut := s.rspOut ++ [okZero] }) ∧
      (s.tcnt = 2 → exec (.pushw w) s = .next { s with
        h1 := blockmix s.h1 (leWord s.tail0 s.tail1 w0 w1)
        tail0 := w2, tail1 := w3, tail2 := w0, len := s.len + 4, rspOut := s.rspOut ++ [okZero] }) ∧
      (s.tcnt = 3 → exec (.pushw w) s = .next { s with
        h1 := blockmix s.h1 (leWord s.tail0 s.tail1 s.tail2 w0)
        tail0 := w1, tail1 := w2, tail2 := w3, len := s.len + 4, rspOut := s.rspOut ++ [okZero] })) ∧
  (∀ (w : Word) (s : State), s.mode = .idle → exec (.pushw w) s = .next (s.only .seq 0)) ∧
  (∀ (w : Word) (s : State), s.mode ≠ .idle → 2 ^ 32 - 1 - 4 < s.len.toNat →
    exec (.pushw w) s = .next (s.only .len 0))

/-- 40 R114: an admitted PUSHW has exactly the effect of four PUSHBs; only the number of responses differs. -/
def Obligations.PushwIsFourPushbs : Prop :=
  ∀ (w : Word) (s : State), s.mode ≠ .idle → s.len.toNat ≤ 2 ^ 32 - 1 - 4 →
    ∃ t : State, exec (.pushw w) s = .next t ∧
      runAll (pushes (wordBytes w)) s = .next { t with rspOut := s.rspOut ++ List.replicate 4 okZero }

/-- 40 R106: what `finalize` computes from H1, TAIL, TCNT and LEN. -/
def Obligations.FinalizeMixesTailAndLength : Prop :=
  ∀ s : State,
    (s.tcnt = 0 → s.finalize = fmix32 (s.h1 ^^^ s.len)) ∧
    (s.tcnt ≠ 0 → s.finalize =
      fmix32 ((s.h1 ^^^ mixk (s.tail0.setWidth 32 |||
        (if 2 ≤ s.tcnt.toNat then s.tail1.setWidth 32 <<< 8 else 0) |||
        (if s.tcnt = 3 then s.tail2.setWidth 32 <<< 16 else 0))) ^^^ s.len))

/-- 40 R115: HEND answers the hash and ends the message. -/
def Obligations.HendAnswersHash : Prop :=
  DecodesN 0x04 .hend ∧
  (∀ s : State, s.mode = .hash →
    exec .hend s = .next { s with
      h1 := 0, tail0 := 0, tail1 := 0, tail2 := 0, tcnt := 0, len := 0, mode := .idle,
      rspOut := s.rspOut ++ [⟨.ok, s.finalize.setWidth 64⟩] }) ∧
  (∀ s : State, s.mode ≠ .hash → exec .hend s = .next (s.only .seq 0))

/-- 40 R116: MABORT drops the open message, with no register update. -/
def Obligations.MabortDropsMessage : Prop :=
  DecodesN 0x0A .mabort ∧
  (∀ s : State, s.mode ≠ .idle →
    exec .mabort s = .next { s with
      h1 := 0, tail0 := 0, tail1 := 0, tail2 := 0, tcnt := 0, len := 0, mode := .idle,
      rspOut := s.rspOut ++ [okZero] }) ∧
  (∀ s : State, s.mode = .idle → exec .mabort s = .next (s.only .seq 0))

/-! ### The hash -/

/-- 40 R107: streaming equals whole-message. -/
def Obligations.StreamingEqualsWholeMessage : Prop :=
  ∀ (s : State) (bytes : List Byte), bytes.length ≤ 2 ^ 32 - 1 → s.tcnt = 0 → s.len = 0 →
    (bytes.foldl State.absorb s).finalize = hash32 s.h1 bytes

/-- 30 R70, 40 R107, R108, R115: the macro HASHMSG, begun with no message open, runs with every response OK, answers the
whole-message hash under HSEED, and leaves the state as it was. -/
def Obligations.HashMacroAnswersHash : Prop :=
  ∀ (s : State) (bytes : List Byte), Invariants s → s.mode = .idle → bytes.length ≤ 2 ^ 32 - 1 →
    runAll (hashMsg bytes) s = .next { s with
      rspOut := s.rspOut ++ (List.replicate (bytes.length + 1) okZero ++
        [⟨.ok, (hash32 s.hseed bytes).setWidth 64⟩]) }

/-- 30 R70: packing bytes four by four into PUSHWs changes no state element. -/
def Obligations.PackedPushesHaveSameEffect : Prop :=
  ∀ (s : State) (bytes : List Byte), s.mode ≠ .idle → s.len.toNat + bytes.length ≤ 2 ^ 32 - 1 →
    ∃ t : State, runAll (pushes bytes) s = .next { t with rspOut := s.rspOut ++ List.replicate bytes.length okZero } ∧
      runAll (packedPushes bytes) s = .next { t with
        rspOut := s.rspOut ++ List.replicate (bytes.length / 4 + bytes.length % 4) okZero }

/-- 40 R119: for a fixed seed the map from a 4-byte message to its hash is a bijection. -/
def Obligations.FourByteHashIsBijective : Prop :=
  ∀ seed : Word, Function.Bijective fun w : Word => hash32 seed (wordBytes w)

/-! ### The register file's commands -/

/-- 41 R133: CONFIG constructs the estimator, or changes nothing. -/
def Obligations.ConfigConstructsEstimator : Prop :=
  DecodesXA 0x10 .config ∧
  (∀ (b : Byte) (seed : Word) (s : State), s.mode = .idle → 4 ≤ b.toNat → b.toNat ≤ 16 →
    ∃ t, exec (.config b seed) s = .next t ∧
      t = { s with b := t.b, eseed := seed, m := t.m, cfgv := true, rspOut := s.rspOut ++ [okZero] } ∧
      t.b.toNat = b.toNat ∧
      ∀ j, Memory.read t.m j = if j < 2 ^ b.toNat then 0 else Memory.read s.m j) ∧
  (∀ (b : Byte) (seed : Word) (s : State), s.mode ≠ .idle → exec (.config b seed) s = .next (s.only .seq 0)) ∧
  (∀ (b : Byte) (seed : Word) (s : State), s.mode = .idle → b.toNat < 4 ∨ 16 < b.toNat →
    exec (.config b seed) s = .next (s.only .invalidParameter 0))

/-- 41 R134: ABEGIN samples ESEED and opens an ADD message. -/
def Obligations.AbeginOpensAddMessage : Prop :=
  DecodesN 0x11 .abegin ∧
  (∀ s : State, s.mode = .idle → s.cfgv = true →
    exec .abegin s = .next { s with
      h1 := s.eseed, tcnt := 0, len := 0, mode := .add, rspOut := s.rspOut ++ [okZero] }) ∧
  (∀ s : State, s.mode ≠ .idle → exec .abegin s = .next (s.only .seq 0)) ∧
  (∀ s : State, s.mode = .idle → s.cfgv = false → exec .abegin s = .next (s.only .nocfg 0))

/-- 41 R135: AEND hashes the item, makes its cell the maximum of the old value and the rank, and ends the message. `Invariants`
excludes a precision above 16 and a file out of canonical form. -/
def Obligations.AendUpdatesOneCell : Prop :=
  DecodesN 0x12 .aend ∧
  (∀ s : State, Invariants s → s.mode = .add →
    ∃ t, exec .aend s = .next t ∧
      t = { s with m := t.m, h1 := 0, tail0 := 0, tail1 := 0, tail2 := 0, tcnt := 0, len := 0, mode := .idle,
                   rspOut := s.rspOut ++ [okZero] } ∧
      ∀ j, (Memory.read t.m j).toNat =
        if j = regIndex s.finalize s.b then max (Memory.read s.m j).toNat (rank s.finalize s.b)
        else (Memory.read s.m j).toNat) ∧
  (∀ s : State, s.mode ≠ .add → exec .aend s = .next (s.only .seq 0))

/-- 41 R136: CLEAR zeroes every register and writes nothing else. The precision of a configured estimator is at most 16 by
I-1 of R31. -/
def Obligations.ClearZeroesRegisters : Prop :=
  DecodesN 0x14 .clear ∧
  (∀ s : State, s.mode = .idle → s.cfgv = true → s.b.toNat ≤ 16 →
    ∃ t, exec .clear s = .next t ∧ t = { s with m := t.m, rspOut := s.rspOut ++ [okZero] } ∧
      ∀ j, Memory.read t.m j = if j < 2 ^ s.b.toNat then 0 else Memory.read s.m j) ∧
  (∀ s : State, s.mode ≠ .idle → exec .clear s = .next (s.only .seq 0)) ∧
  (∀ s : State, s.mode = .idle → s.cfgv = false → exec .clear s = .next (s.only .nocfg 0))

/-- 41 R137: GETM answers 2^B. -/
def Obligations.GetmAnswersRegisterCount : Prop :=
  DecodesN 0x15 .getm ∧
  (∀ s : State, s.mode = .idle → s.cfgv = true →
    exec .getm s = .next (s.only .ok (BitVec.ofNat 64 (2 ^ s.b.toNat)))) ∧
  (∀ s : State, s.mode ≠ .idle → exec .getm s = .next (s.only .seq 0)) ∧
  (∀ s : State, s.mode = .idle → s.cfgv = false → exec .getm s = .next (s.only .nocfg 0))

/-- 41 R138: GETB answers B. -/
def Obligations.GetbAnswersPrecision : Prop :=
  DecodesN 0x16 .getb ∧
  (∀ s : State, s.mode = .idle → s.cfgv = true →
    exec .getb s = .next (s.only .ok (BitVec.ofNat 64 s.b.toNat))) ∧
  (∀ s : State, s.mode ≠ .idle → exec .getb s = .next (s.only .seq 0)) ∧
  (∀ s : State, s.mode = .idle → s.cfgv = false → exec .getb s = .next (s.only .nocfg 0))

/-- 41 R139: RDREG answers one cell below m, and INDEX from m on. The precision of a configured estimator is at most 16 by
I-1 of R31. -/
def Obligations.RdregAnswersOneCell : Prop :=
  DecodesA 0x17 .rdreg ∧
  (∀ (i : Word) (s : State), s.mode = .idle → s.cfgv = true → s.b.toNat ≤ 16 → i.toNat < 2 ^ s.b.toNat →
    exec (.rdreg i) s = .next (s.only .ok ((Memory.read s.m i.toNat).setWidth 64))) ∧
  (∀ (i : Word) (s : State), s.mode ≠ .idle → exec (.rdreg i) s = .next (s.only .seq 0)) ∧
  (∀ (i : Word) (s : State), s.mode = .idle → s.cfgv = false → exec (.rdreg i) s = .next (s.only .nocfg 0)) ∧
  (∀ (i : Word) (s : State), s.mode = .idle → s.cfgv = true → 2 ^ s.b.toNat ≤ i.toNat →
    exec (.rdreg i) s = .next (s.only .index 0))

/-! ### Index, rank and update -/

/-- 41 R130: the index is the top B bits of the hash, below 2^B. -/
def Obligations.IndexIsTopBits : Prop :=
  ∀ (h : Word) (b : BitVec 5), 4 ≤ b.toNat → b.toNat ≤ 16 →
    regIndex h b = h.toNat / 2 ^ (32 - b.toNat) ∧ regIndex h b < 2 ^ b.toNat

/-- 41 R131: rho counts the leading zeros of an n-bit field plus one, saturates at n + 1, and the rank is rho of the low
32 - B bits of the hash. -/
def Obligations.RhoCountsLeadingZeros : Prop :=
  (∀ w n : Nat, 16 ≤ n → n ≤ 28 → w < 2 ^ n →
    (w = 0 → rho w n = n + 1) ∧
    (∀ p, w.testBit p = true → (∀ q, p < q → w.testBit q = false) → p < n ∧ rho w n = n - p) ∧
    1 ≤ rho w n ∧ rho w n ≤ n + 1 ∧
    (rho w n = 1 ↔ w.testBit (n - 1) = true) ∧ (rho w n = n ↔ w = 1) ∧ (rho w n = n + 1 ↔ w = 0)) ∧
  (∀ (h : Word) (b : BitVec 5), 4 ≤ b.toNat → b.toNat ≤ 16 →
    rank h b = rho (h.extractLsb' 0 (32 - b.toNat)).toNat (32 - b.toNat) ∧
    1 ≤ rank h b ∧ rank h b ≤ 33 - b.toNat)

/-- 41 R132: the update writes at most the cell of its index, and only with a larger value. -/
def Obligations.UpdateTakesMaximum : Prop :=
  ∀ (m : List Host.Cell) (h : Word) (b : BitVec 5) (j : Nat), Memory.wf m = true → 4 ≤ b.toNat → b.toNat ≤ 16 →
    (Memory.read (updateCells m h b) j).toNat =
      if j = regIndex h b then max (Memory.read m j).toNat (rank h b) else (Memory.read m j).toNat

/-- 30 R70, 41 R135, R140: the macro ADDMSG, begun with no message open on a configured estimator, runs with every response
OK, and its whole effect is the update of one cell by the item's hash under ESEED. -/
def Obligations.AddMacroUpdatesRegisters : Prop :=
  ∀ (s : State) (item : List Byte), Invariants s → s.mode = .idle → s.cfgv = true → item.length ≤ 2 ^ 32 - 1 →
    runAll (addMsg item) s = .next { s with
      m := addItem s.eseed s.b s.m item
      rspOut := s.rspOut ++ List.replicate (item.length + 2) okZero }

/-- 41 R141: adding an item that was added before changes no register. For items of 2^32 bytes or more, which no command can add,
this rests on the model's choice of log entry 17. -/
def Obligations.DuplicateAddChangesNothing : Prop :=
  ∀ (seed : Word) (b : BitVec 5) (m : List Host.Cell) (items : List (List Byte)) (x : List Byte),
    Memory.wf m = true → 4 ≤ b.toNat → b.toNat ≤ 16 → x ∈ items →
      addItem seed b (items.foldl (addItem seed b) m) x = items.foldl (addItem seed b) m

/-- 41 R142: from cleared registers, each cell ends as the largest rank of the items that fall on it, so that the register
file depends on the set of items alone. For items of 2^32 bytes or more, which no command can add, this rests on the model's choice
of log entry 17. -/
def Obligations.FinalCellsAreMaxima : Prop :=
  ∀ (seed : Word) (b : BitVec 5) (m : List Host.Cell) (items : List (List Byte)) (j : Nat),
    Memory.wf m = true → 4 ≤ b.toNat → b.toNat ≤ 16 → (∀ k, k < 2 ^ b.toNat → Memory.read m k = 0) →
    j < 2 ^ b.toNat →
      (Memory.read (items.foldl (addItem seed b) m) j).toNat =
        ((items.filter fun x => regIndex (hash32 seed x) b = j).map fun x => rank (hash32 seed x) b).foldl max 0

/-! ### The estimate -/

/-- 42 R161: V and ZI are the number of zero cells below m and the sum of `2^(29 - M[j])` over the cells below m, with the
bounds the rule gives (Z scaled by 2^29), and ESTIMATE depends on M only through them. `Invariants` carries I-2, by which no
cell exceeds 33 - B. -/
def Obligations.StatisticsCountCells : Prop :=
  (∀ s : State, Invariants s → s.cfgv = true →
    s.zeroCount = zeroCells s ∧ s.scaledSum = cellSum s ∧ zeroCells s ≤ 2 ^ s.b.toNat ∧
    2 ^ s.b.toNat * 2 ^ 29 ≤ 2 ^ (33 - s.b.toNat) * cellSum s ∧ cellSum s ≤ 2 ^ s.b.toNat * 2 ^ 29 ∧
    16 ≤ cellSum s ∧ cellSum s ≤ 2 ^ 45 ∧ zeroCells s * 2 ^ 29 ≤ cellSum s) ∧
  (∀ s t : State, Invariants s → Invariants t → s.mode = .idle → t.mode = .idle → s.cfgv = true → t.cfgv = true →
    s.b = t.b → zeroCells s = zeroCells t → cellSum s = cellSum t →
      ∃ st d, exec .estimate s = .next (s.only st d) ∧ exec .estimate t = .next (t.only st d))

/-- 42 R160: ESTIMATE answers EST of the statistics, or RANGE where EST has no value, and writes nothing. -/
def Obligations.EstimateAnswersEst : Prop :=
  DecodesN 0x13 .estimate ∧
  (∀ (s : State) (r : Data), Invariants s → s.mode = .idle → s.cfgv = true →
    estF64 ln s.b.toNat (zeroCells s) (cellSum s) = some r → exec .estimate s = .next (s.only .ok r)) ∧
  (∀ s : State, Invariants s → s.mode = .idle → s.cfgv = true →
    estF64 ln s.b.toNat (zeroCells s) (cellSum s) = none → exec .estimate s = .next (s.only .range 0)) ∧
  (∀ s : State, s.mode ≠ .idle → exec .estimate s = .next (s.only .seq 0)) ∧
  (∀ s : State, s.mode = .idle → s.cfgv = false → exec .estimate s = .next (s.only .nocfg 0))

/-- 42 R167, R168, 60 R210: ESTIMATE completes with a value exactly while the raw estimate is below 2^32, and answers RANGE
from there on. -/
def Obligations.EstimateCompletesBelowRange : Prop :=
  ∀ s : State, Invariants s → s.mode = .idle → s.cfgv = true →
    (rawF64 s.b.toNat (cellSum s) < 2 ^ 32 →
      ∃ r, estF64 ln s.b.toNat (zeroCells s) (cellSum s) = some r ∧ exec .estimate s = .next (s.only .ok r)) ∧
    (2 ^ 32 ≤ rawF64 s.b.toNat (cellSum s) → exec .estimate s = .next (s.only .range 0))

/-- 42 R173: with every register 0 the answer is exactly 0. -/
def Obligations.EmptyEstimatorAnswersZero : Prop :=
  ∀ s : State, Invariants s → s.mode = .idle → s.cfgv = true → (∀ j, j < 2 ^ s.b.toNat → Memory.read s.m j = 0) →
    exec .estimate s = .next (s.only .ok 0)

/-- 42 R172 (L1), (L3): LN is 0 at 1, not negative from 1 on, negative below 1. -/
def Obligations.LnSigns : Prop :=
  ln 1 = 0 ∧ (∀ x : F64, 1 ≤ x → 0 ≤ ln x) ∧ (∀ x : F64, 0 < x → x < 1 → ln x < 0)

/-- 42 R172 (L2): LN is within one unit in the last place of its result of the natural logarithm. -/
def Obligations.LnWithinOneUlp : Prop :=
  ∀ x : F64, 0 < x → |((ln x : ℚ) : ℝ) - Real.log (x : ℝ)| ≤ ((ulp (ln x) : ℚ) : ℝ)

/-- 42 R176: a small-range value is below 726818, so the large-range correction never follows it. -/
def Obligations.CorrectionsAreExclusive : Prop :=
  ∀ b v zi : Nat, 4 ≤ b → b ≤ 16 → 0 < v → v ≤ 2 ^ b →
    rawF64 b zi ≤ 5 / 2 * 2 ^ b →
      smallF64 ln b v (rawF64 b zi) < 726818 ∧
      largeF64 ln (smallF64 ln b v (rawF64 b zi)) = some (smallF64 ln b v (rawF64 b zi))

/-- 42 R177: every estimate is below 2^38. -/
def Obligations.EstimateBelowTwoPow38 : Prop :=
  ∀ (b v zi : Nat) (r : Data), legalStats b v zi → estF64 ln b v zi = some r → r.toNat < 2 ^ 38

/-- 42 R171 (P4): away from integers, from the two thresholds and below 2^31, the answer is that of the formula over the exact
reals (R162 to R166). -/
def Obligations.EstimateAgreesWithReals : Prop :=
  ∀ b v zi : Nat, legalStats b v zi →
    (∀ k : ℤ, (2 : ℝ) ^ (-12 : ℤ) < |e2Real b v zi - k|) →
    (2 : ℝ) ^ (-40 : ℤ) * e0Real b zi < |e0Real b zi - 5 / 2 * 2 ^ b| →
    (2 : ℝ) ^ (-40 : ℤ) * e1Real b v zi < |e1Real b v zi - 2 ^ 32 / 30| →
    e1Real b v zi < 2 ^ 31 →
      estF64 ln b v zi = some (estReal b v zi)

/-! ### The whole machine -/

/-- 10 R31 at reset. -/
def Obligations.InvariantsHoldAtReset : Prop :=
  Invariants State.reset

/-- 10 R31: every step, of any command or event, keeps the invariants. -/
def Obligations.StepKeepsInvariants : Prop :=
  ∀ s t : State, Invariants s → step s = .next t → Invariants t

/-- 60 R216, 70 R240: in a state that meets the invariants a step never stops, and an accepted command is answered by exactly
one response; an accepted reset event by none. That an event leaves the head of the command channel, and a reset event leaves the
rest of it, is the model's (log entries 1 and 6). -/
def Obligations.EveryCommandIsAnswered : Prop :=
  ∀ s : State, Invariants s → ∃ t, step s = .next t ∧
    (∀ (w : CmdWord) (rest : List HostEvent), s.cmdIn = .command w :: rest →
      t.cmdIn = rest ∧ ∃ r, t.rspOut = s.rspOut ++ [r]) ∧
    (∀ rest : List HostEvent, s.cmdIn = .reset :: rest → t.cmdIn = rest ∧ t.rspOut = s.rspOut)

/-- 10 R31: the invariants hold in every state that any command stream reaches from reset, and no such run stops (60 R216). The
canonical form of the register file among the invariants (log entry 5) and the steps on an empty command channel (log entry 16)
are the model's. -/
def Obligations.ReachableStatesMeetInvariants : Prop :=
  ∀ (n : Nat) (events : List HostEvent), ∃ t, stepsTo n { State.reset with cmdIn := events } = some t ∧ Invariants t

/-- 10 R32: no register decreases but by a successful CLEAR or CONFIG. -/
def Obligations.RegistersNeverDecrease : Prop :=
  ∀ (i : Instr) (s t : State) (r : Response) (j : Nat), Invariants s → exec i s = .next t →
    t.rspOut = s.rspOut ++ [r] → ¬(r.status = .ok ∧ (i = .clear ∨ ∃ b seed, i = .config b seed)) →
      (Memory.read s.m j).toNat ≤ (Memory.read t.m j).toNat

/-- 10 R20 (the column "written by"), 41 R143: each state element changes only by the commands that write it. -/
def Obligations.ElementsChangeOnlyByTheirWriters : Prop :=
  ∀ (i : Instr) (s t : State), exec i s = .next t →
    (t.hseed ≠ s.hseed → ∃ seed, i = .setseed seed) ∧
    (t.eseed ≠ s.eseed ∨ t.b ≠ s.b ∨ t.cfgv ≠ s.cfgv → ∃ b seed, i = .config b seed) ∧
    (t.m ≠ s.m → i = .aend ∨ i = .clear ∨ ∃ b seed, i = .config b seed) ∧
    (t.mode ≠ s.mode → i = .hbegin ∨ i = .abegin ∨ i = .hend ∨ i = .aend ∨ i = .mabort) ∧
    (t.h1 ≠ s.h1 ∨ t.tail0 ≠ s.tail0 ∨ t.tail1 ≠ s.tail1 ∨ t.tail2 ≠ s.tail2 ∨ t.tcnt ≠ s.tcnt ∨ t.len ≠ s.len →
      i = .hbegin ∨ i = .abegin ∨ (∃ byte, i = .pushb byte) ∨ (∃ w, i = .pushw w) ∨ i = .hend ∨ i = .aend ∨
        i = .mabort) ∧
    (t.cfgv = false → s.cfgv = false)

/-- 93 U3, U4, 10 R36: what reset leaves unspecified, and the cells from m on, never reach a response or any other visible part
of the state. -/
def Obligations.UnspecifiedContentsStayInvisible : Prop :=
  ∀ s s' t : State, Invariants s → Invariants s' → SameVisible s s' → step s = .next t →
    ∃ t', step s' = .next t' ∧ SameVisible t t'
end

