-- ==== Sys2Proof/Laws/Decode.lean ====
section
/-! SUPPORT. The three fields of a command word that is put together from its fields (30_encoding.md R60). -/

namespace Sys2Proof

@[simp] theorem opField_cmdWord (op aux : Byte) (arg : Word) : opField (cmdWord op aux arg) = op := by
  apply BitVec.eq_of_getLsbD_eq
  intro i hi
  rw [opField, BitVec.getLsbD_extractLsb', cmdWord, BitVec.getLsbD_append, BitVec.getLsbD_append]
  simp [hi, show ¬40 + i < 40 by omega]

@[simp] theorem auxField_cmdWord (op aux : Byte) (arg : Word) : auxField (cmdWord op aux arg) = aux := by
  apply BitVec.eq_of_getLsbD_eq
  intro i hi
  rw [auxField, BitVec.getLsbD_extractLsb', cmdWord, BitVec.getLsbD_append, BitVec.getLsbD_append]
  simp [hi, show ¬32 + i < 32 by omega, show 32 + i < 40 by omega]

@[simp] theorem argField_cmdWord (op aux : Byte) (arg : Word) : argField (cmdWord op aux arg) = arg := by
  apply BitVec.eq_of_getLsbD_eq
  intro i hi
  rw [argField, BitVec.getLsbD_extractLsb', cmdWord, BitVec.getLsbD_append, BitVec.getLsbD_append]
  simp [hi, show i < 40 by omega]

/-- A word is its three fields. -/
theorem cmdWord_fields (w : CmdWord) : cmdWord (opField w) (auxField w) (argField w) = w := by
  apply BitVec.eq_of_getLsbD_eq
  intro i hi
  rw [cmdWord, BitVec.getLsbD_append, BitVec.getLsbD_append, opField, auxField, argField,
    BitVec.getLsbD_extractLsb', BitVec.getLsbD_extractLsb', BitVec.getLsbD_extractLsb']
  split
  · split
    · next h => simp [h]
    · next h h' =>
      have : 32 + (i - 32) = i := by omega
      simp [this, show i - 32 < 8 by omega]
  · next h =>
    have : 40 + (i - 40) = i := by omega
    simp [this, show i - 40 < 8 by omega]

end Sys2Proof
end

