-- ==== Sys2Proof/Laws/Estimate.lean ====
section
/-! SUPPORT. EST is EST_F64 with the open logarithm: asking the open choice only where the admissible values of the logarithm
give several answers changes nothing (42_estimate.md R171). -/

namespace Sys2Proof.Machine

/-- LN is, at each argument, one of the admissible choices. -/
theorem ln_cases (x : F64) : ∃ f ∈ lnChoices, ln x = f x := by
  unfold ln lnChoices
  split <;> simp

/-- The small-range correction asks LN at one argument. -/
theorem smallF64_cases (b v : Nat) (fE : F64) : ∃ f ∈ lnChoices, smallF64 ln b v fE = smallF64 f b v fE := by
  obtain ⟨f, hf, h⟩ := ln_cases (fdiv (fM b) (mkRat v 1))
  exact ⟨f, hf, by simp only [smallF64, h]⟩

/-- The large-range correction asks LN at one argument. -/
theorem largeF64_cases (fE : F64) : ∃ f ∈ lnChoices, largeF64 ln fE = largeF64 f fE := by
  obtain ⟨f, hf, h⟩ := ln_cases (fsub 1 (fdiv fE f2p32))
  exact ⟨f, hf, by simp only [largeF64, h]⟩

/-- EST is EST_F64 with the open LN. -/
theorem est_eq_estF64 (b v zi : Nat) : est b v zi = estF64 ln b v zi := by
  unfold est
  simp only
  split
  · next h =>
    obtain ⟨f, hf, hs⟩ := smallF64_cases b v (rawF64 b zi)
    obtain ⟨g, hg, hl⟩ := largeF64_cases (smallF64 ln b v (rawF64 b zi))
    have := eq_of_beq (List.all_eq_true.mp (List.all_eq_true.mp h f hf) g hg)
    rw [← this, estF64, estWith, estWith, hl, hs]
  · rfl

/-- Below the threshold the large-range correction changes nothing. -/
theorem largeF64_of_le {lnF : F64 → F64} {fE : F64} (h : fE ≤ t30) : largeF64 lnF fE = some fE :=
  if_neg (not_lt.mpr h)

/-- Above the threshold it answers, or fails where `1 - fE/2^32` is not positive. -/
theorem largeF64_of_lt {lnF : F64 → F64} {fE : F64} (h : t30 < fE) :
    largeF64 lnF fE =
      if fsub 1 (fdiv fE f2p32) ≤ 0 then none else some (-(fmul (lnF (fsub 1 (fdiv fE f2p32))) f2p32)) :=
  if_pos h

end Sys2Proof.Machine
end

