-- ==== Sys2Proof/Laws/Ops.lean ====
section
/-! SUPPORT. Everything each shared check can do: if it answers a next state, then either the command goes on, or the named
status is answered and nothing else changes. And how each check reads once its condition is known. -/

namespace Sys2Proof.Machine

@[simp] theorem respond_eq (d : Data) (s : State) : respond d s = .next (s.answer ⟨.ok, d⟩) := rfl

@[simp] theorem raise_eq (st : Status) (s : State) : raise st s = .next (s.answer ⟨st, 0⟩) := rfl

@[simp] theorem illegalCommand_eq (s : State) : illegalCommand s = .next (s.answer ⟨.illegal, 0⟩) := rfl

variable {s t : State} {k : Result}

@[simp] theorem whenIdle_pos (h : s.mode = .idle) : whenIdle s k = k := if_pos h

@[simp] theorem whenIdle_neg (h : ¬s.mode = .idle) : whenIdle s k = .next (s.answer ⟨.seq, 0⟩) := if_neg h

theorem whenIdle_next (h : whenIdle s k = .next t) :
    (s.mode = .idle ∧ k = .next t) ∨ (s.mode ≠ .idle ∧ t = s.answer ⟨.seq, 0⟩) := by
  by_cases hm : s.mode = .idle <;> simp_all

@[simp] theorem whenOpen_pos (h : ¬s.mode = .idle) : whenOpen s k = k := if_neg h

@[simp] theorem whenOpen_neg (h : s.mode = .idle) : whenOpen s k = .next (s.answer ⟨.seq, 0⟩) := if_pos h

theorem whenOpen_next (h : whenOpen s k = .next t) :
    (s.mode ≠ .idle ∧ k = .next t) ∨ (s.mode = .idle ∧ t = s.answer ⟨.seq, 0⟩) := by
  by_cases hm : s.mode = .idle <;> simp_all

@[simp] theorem whenPhase_pos {p : Mode} (h : s.mode = p) : whenPhase p s k = k := if_pos h

@[simp] theorem whenPhase_neg {p : Mode} (h : ¬s.mode = p) : whenPhase p s k = .next (s.answer ⟨.seq, 0⟩) :=
  if_neg h

theorem whenPhase_next {p : Mode} (h : whenPhase p s k = .next t) :
    (s.mode = p ∧ k = .next t) ∨ (s.mode ≠ p ∧ t = s.answer ⟨.seq, 0⟩) := by
  by_cases hm : s.mode = p
  · rw [whenPhase_pos hm] at h
    exact .inl ⟨hm, h⟩
  · rw [whenPhase_neg hm] at h
    exact .inr ⟨hm, by simpa using h.symm⟩

@[simp] theorem whenConfigured_pos (h : s.mode = .idle) (hc : s.cfgv = true) : whenConfigured s k = k := by
  simp [whenConfigured, h, hc]

@[simp] theorem whenConfigured_unset (h : s.mode = .idle) (hc : s.cfgv = false) :
    whenConfigured s k = .next (s.answer ⟨.nocfg, 0⟩) := by
  simp [whenConfigured, h, hc]

@[simp] theorem whenConfigured_busy (h : ¬s.mode = .idle) :
    whenConfigured s k = .next (s.answer ⟨.seq, 0⟩) := by
  simp [whenConfigured, h]

theorem whenConfigured_next (h : whenConfigured s k = .next t) :
    (s.mode = .idle ∧ s.cfgv = true ∧ k = .next t) ∨
      (s.mode ≠ .idle ∧ t = s.answer ⟨.seq, 0⟩) ∨
      (s.mode = .idle ∧ s.cfgv = false ∧ t = s.answer ⟨.nocfg, 0⟩) := by
  by_cases hm : s.mode = .idle <;> cases hc : s.cfgv <;> simp_all

@[simp] theorem whenPrecision_pos {b : Byte} (h : 4 ≤ b.toNat) (h' : b.toNat ≤ 16) :
    whenPrecision b s k = k :=
  if_neg (by omega)

@[simp] theorem whenPrecision_neg {b : Byte} (h : b.toNat < 4 ∨ 16 < b.toNat) :
    whenPrecision b s k = .next (s.answer ⟨.invalidParameter, 0⟩) :=
  if_pos h

theorem whenPrecision_next {b : Byte} (h : whenPrecision b s k = .next t) :
    (4 ≤ b.toNat ∧ b.toNat ≤ 16 ∧ k = .next t) ∨
      ((b.toNat < 4 ∨ 16 < b.toNat) ∧ t = s.answer ⟨.invalidParameter, 0⟩) := by
  by_cases hb : b.toNat < 4 ∨ 16 < b.toNat
  · rw [whenPrecision_neg hb] at h
    exact .inr ⟨hb, by simpa using h.symm⟩
  · rw [whenPrecision_pos (by omega) (by omega)] at h
    exact .inl ⟨by omega, by omega, h⟩

@[simp] theorem whenIndex_pos {i : Nat} (h : i < s.regCount) : whenIndex i s k = k := if_neg (by omega)

@[simp] theorem whenIndex_neg {i : Nat} (h : s.regCount ≤ i) :
    whenIndex i s k = .next (s.answer ⟨.index, 0⟩) :=
  if_pos h

theorem whenIndex_next {i : Nat} (h : whenIndex i s k = .next t) :
    (i < s.regCount ∧ k = .next t) ∨ (s.regCount ≤ i ∧ t = s.answer ⟨.index, 0⟩) := by
  by_cases hi : s.regCount ≤ i
  · rw [whenIndex_neg hi] at h
    exact .inr ⟨hi, by simpa using h.symm⟩
  · rw [whenIndex_pos (by omega)] at h
    exact .inl ⟨by omega, h⟩

@[simp] theorem whenRoom_pos {n : Nat} (h : s.len.toNat + n ≤ maxLen) : whenRoom n s k = k :=
  if_neg (by omega)

@[simp] theorem whenRoom_neg {n : Nat} (h : maxLen < s.len.toNat + n) :
    whenRoom n s k = .next (s.answer ⟨.len, 0⟩) :=
  if_pos h

theorem whenRoom_next {n : Nat} (h : whenRoom n s k = .next t) :
    (s.len.toNat + n ≤ maxLen ∧ k = .next t) ∨
      (maxLen < s.len.toNat + n ∧ t = s.answer ⟨.len, 0⟩) := by
  by_cases hn : maxLen < s.len.toNat + n
  · rw [whenRoom_neg hn] at h
    exact .inr ⟨hn, by simpa using h.symm⟩
  · rw [whenRoom_pos (by omega)] at h
    exact .inl ⟨by omega, h⟩

@[simp] theorem withCells_pos {n : Nat} (h : n ≤ physCells) : withCells n k = k := if_pos h

theorem withCells_next {n : Nat} (h : withCells n k = .next t) : n ≤ physCells ∧ k = .next t := by
  by_cases hn : n ≤ physCells
  · rw [withCells_pos hn] at h
    exact ⟨hn, h⟩
  · simp [withCells, hn] at h

end Sys2Proof.Machine
end

