-- ==== Sys2Proof/Laws/State.lean ====
section
/-! SUPPORT. What each named update of the state does to each field, so that no proof unfolds a record update. -/

namespace Sys2Proof.Machine

/-! ### State.answer -/

@[simp] theorem State.answer_hseed (s : State) (r : Response) : (s.answer r).hseed = s.hseed := rfl
@[simp] theorem State.answer_eseed (s : State) (r : Response) : (s.answer r).eseed = s.eseed := rfl
@[simp] theorem State.answer_b (s : State) (r : Response) : (s.answer r).b = s.b := rfl
@[simp] theorem State.answer_cfgv (s : State) (r : Response) : (s.answer r).cfgv = s.cfgv := rfl
@[simp] theorem State.answer_m (s : State) (r : Response) : (s.answer r).m = s.m := rfl
@[simp] theorem State.answer_mode (s : State) (r : Response) : (s.answer r).mode = s.mode := rfl
@[simp] theorem State.answer_h1 (s : State) (r : Response) : (s.answer r).h1 = s.h1 := rfl
@[simp] theorem State.answer_tail0 (s : State) (r : Response) : (s.answer r).tail0 = s.tail0 := rfl
@[simp] theorem State.answer_tail1 (s : State) (r : Response) : (s.answer r).tail1 = s.tail1 := rfl
@[simp] theorem State.answer_tail2 (s : State) (r : Response) : (s.answer r).tail2 = s.tail2 := rfl
@[simp] theorem State.answer_tcnt (s : State) (r : Response) : (s.answer r).tcnt = s.tcnt := rfl
@[simp] theorem State.answer_len (s : State) (r : Response) : (s.answer r).len = s.len := rfl
@[simp] theorem State.answer_cmdIn (s : State) (r : Response) : (s.answer r).cmdIn = s.cmdIn := rfl
@[simp] theorem State.answer_rspOut (s : State) (r : Response) : (s.answer r).rspOut = s.rspOut ++ [r] := rfl

/-! ### State.openMessage -/

@[simp] theorem State.openMessage_hseed (s : State) (seed : Word) (p : Mode) : (s.openMessage seed p).hseed = s.hseed := rfl
@[simp] theorem State.openMessage_eseed (s : State) (seed : Word) (p : Mode) : (s.openMessage seed p).eseed = s.eseed := rfl
@[simp] theorem State.openMessage_b (s : State) (seed : Word) (p : Mode) : (s.openMessage seed p).b = s.b := rfl
@[simp] theorem State.openMessage_cfgv (s : State) (seed : Word) (p : Mode) : (s.openMessage seed p).cfgv = s.cfgv := rfl
@[simp] theorem State.openMessage_m (s : State) (seed : Word) (p : Mode) : (s.openMessage seed p).m = s.m := rfl
@[simp] theorem State.openMessage_mode (s : State) (seed : Word) (p : Mode) : (s.openMessage seed p).mode = p := rfl
@[simp] theorem State.openMessage_h1 (s : State) (seed : Word) (p : Mode) : (s.openMessage seed p).h1 = seed := rfl
@[simp] theorem State.openMessage_tail0 (s : State) (seed : Word) (p : Mode) : (s.openMessage seed p).tail0 = s.tail0 := rfl
@[simp] theorem State.openMessage_tail1 (s : State) (seed : Word) (p : Mode) : (s.openMessage seed p).tail1 = s.tail1 := rfl
@[simp] theorem State.openMessage_tail2 (s : State) (seed : Word) (p : Mode) : (s.openMessage seed p).tail2 = s.tail2 := rfl
@[simp] theorem State.openMessage_tcnt (s : State) (seed : Word) (p : Mode) : (s.openMessage seed p).tcnt = 0 := rfl
@[simp] theorem State.openMessage_len (s : State) (seed : Word) (p : Mode) : (s.openMessage seed p).len = 0 := rfl
@[simp] theorem State.openMessage_cmdIn (s : State) (seed : Word) (p : Mode) : (s.openMessage seed p).cmdIn = s.cmdIn := rfl
@[simp] theorem State.openMessage_rspOut (s : State) (seed : Word) (p : Mode) : (s.openMessage seed p).rspOut = s.rspOut := rfl

/-! ### State.closeMessage -/

@[simp] theorem State.closeMessage_hseed (s : State) : (s.closeMessage).hseed = s.hseed := rfl
@[simp] theorem State.closeMessage_eseed (s : State) : (s.closeMessage).eseed = s.eseed := rfl
@[simp] theorem State.closeMessage_b (s : State) : (s.closeMessage).b = s.b := rfl
@[simp] theorem State.closeMessage_cfgv (s : State) : (s.closeMessage).cfgv = s.cfgv := rfl
@[simp] theorem State.closeMessage_m (s : State) : (s.closeMessage).m = s.m := rfl
@[simp] theorem State.closeMessage_mode (s : State) : (s.closeMessage).mode = .idle := rfl
@[simp] theorem State.closeMessage_h1 (s : State) : (s.closeMessage).h1 = 0 := rfl
@[simp] theorem State.closeMessage_tail0 (s : State) : (s.closeMessage).tail0 = 0 := rfl
@[simp] theorem State.closeMessage_tail1 (s : State) : (s.closeMessage).tail1 = 0 := rfl
@[simp] theorem State.closeMessage_tail2 (s : State) : (s.closeMessage).tail2 = 0 := rfl
@[simp] theorem State.closeMessage_tcnt (s : State) : (s.closeMessage).tcnt = 0 := rfl
@[simp] theorem State.closeMessage_len (s : State) : (s.closeMessage).len = 0 := rfl
@[simp] theorem State.closeMessage_cmdIn (s : State) : (s.closeMessage).cmdIn = s.cmdIn := rfl
@[simp] theorem State.closeMessage_rspOut (s : State) : (s.closeMessage).rspOut = s.rspOut := rfl

/-! ### State.setTail -/

@[simp] theorem State.setTail_hseed (s : State) (k : BitVec 2) (v : Byte) : (s.setTail k v).hseed = s.hseed := rfl
@[simp] theorem State.setTail_eseed (s : State) (k : BitVec 2) (v : Byte) : (s.setTail k v).eseed = s.eseed := rfl
@[simp] theorem State.setTail_b (s : State) (k : BitVec 2) (v : Byte) : (s.setTail k v).b = s.b := rfl
@[simp] theorem State.setTail_cfgv (s : State) (k : BitVec 2) (v : Byte) : (s.setTail k v).cfgv = s.cfgv := rfl
@[simp] theorem State.setTail_m (s : State) (k : BitVec 2) (v : Byte) : (s.setTail k v).m = s.m := rfl
@[simp] theorem State.setTail_mode (s : State) (k : BitVec 2) (v : Byte) : (s.setTail k v).mode = s.mode := rfl
@[simp] theorem State.setTail_h1 (s : State) (k : BitVec 2) (v : Byte) : (s.setTail k v).h1 = s.h1 := rfl
@[simp] theorem State.setTail_tail0 (s : State) (k : BitVec 2) (v : Byte) : (s.setTail k v).tail0 = if k = 0 then v else s.tail0 := rfl
@[simp] theorem State.setTail_tail1 (s : State) (k : BitVec 2) (v : Byte) : (s.setTail k v).tail1 = if k = 1 then v else s.tail1 := rfl
@[simp] theorem State.setTail_tail2 (s : State) (k : BitVec 2) (v : Byte) : (s.setTail k v).tail2 = if k = 2 then v else s.tail2 := rfl
@[simp] theorem State.setTail_tcnt (s : State) (k : BitVec 2) (v : Byte) : (s.setTail k v).tcnt = s.tcnt := rfl
@[simp] theorem State.setTail_len (s : State) (k : BitVec 2) (v : Byte) : (s.setTail k v).len = s.len := rfl
@[simp] theorem State.setTail_cmdIn (s : State) (k : BitVec 2) (v : Byte) : (s.setTail k v).cmdIn = s.cmdIn := rfl
@[simp] theorem State.setTail_rspOut (s : State) (k : BitVec 2) (v : Byte) : (s.setTail k v).rspOut = s.rspOut := rfl

/-! ### State.absorb -/

@[simp] theorem State.absorb_hseed (s : State) (v : Byte) : (s.absorb v).hseed = s.hseed := by
  unfold State.absorb; split <;> rfl
@[simp] theorem State.absorb_eseed (s : State) (v : Byte) : (s.absorb v).eseed = s.eseed := by
  unfold State.absorb; split <;> rfl
@[simp] theorem State.absorb_b (s : State) (v : Byte) : (s.absorb v).b = s.b := by
  unfold State.absorb; split <;> rfl
@[simp] theorem State.absorb_cfgv (s : State) (v : Byte) : (s.absorb v).cfgv = s.cfgv := by
  unfold State.absorb; split <;> rfl
@[simp] theorem State.absorb_m (s : State) (v : Byte) : (s.absorb v).m = s.m := by
  unfold State.absorb; split <;> rfl
@[simp] theorem State.absorb_mode (s : State) (v : Byte) : (s.absorb v).mode = s.mode := by
  unfold State.absorb; split <;> rfl
@[simp] theorem State.absorb_h1 (s : State) (v : Byte) :
    (s.absorb v).h1 = if s.tcnt = 3 then blockmix s.h1 (leWord s.tail0 s.tail1 s.tail2 v) else s.h1 := by
  unfold State.absorb
  split <;> rfl
@[simp] theorem State.absorb_tail0 (s : State) (v : Byte) :
    (s.absorb v).tail0 = if s.tcnt = 0 then v else s.tail0 := by
  unfold State.absorb
  split
  · next h => simp [h]
  · rfl
@[simp] theorem State.absorb_tail1 (s : State) (v : Byte) :
    (s.absorb v).tail1 = if s.tcnt = 1 then v else s.tail1 := by
  unfold State.absorb
  split
  · next h => simp [h]
  · rfl
@[simp] theorem State.absorb_tail2 (s : State) (v : Byte) :
    (s.absorb v).tail2 = if s.tcnt = 2 then v else s.tail2 := by
  unfold State.absorb
  split
  · next h => simp [h]
  · rfl
@[simp] theorem State.absorb_tcnt (s : State) (v : Byte) :
    (s.absorb v).tcnt = s.tcnt + 1 := by
  unfold State.absorb
  split
  · next h => simp [h]
  · rfl
@[simp] theorem State.absorb_len (s : State) (v : Byte) :
    (s.absorb v).len = s.len + 1 := by
  unfold State.absorb
  split <;> rfl
@[simp] theorem State.absorb_cmdIn (s : State) (v : Byte) : (s.absorb v).cmdIn = s.cmdIn := by
  unfold State.absorb; split <;> rfl
@[simp] theorem State.absorb_rspOut (s : State) (v : Byte) : (s.absorb v).rspOut = s.rspOut := by
  unfold State.absorb; split <;> rfl

/-! ### State.construct -/

@[simp] theorem State.construct_hseed (s : State) (b : Byte) (seed : Word) : (s.construct b seed).hseed = s.hseed := rfl
@[simp] theorem State.construct_eseed (s : State) (b : Byte) (seed : Word) : (s.construct b seed).eseed = seed := rfl
@[simp] theorem State.construct_b (s : State) (b : Byte) (seed : Word) : (s.construct b seed).b = b.setWidth 5 := rfl
@[simp] theorem State.construct_cfgv (s : State) (b : Byte) (seed : Word) : (s.construct b seed).cfgv = true := rfl
@[simp] theorem State.construct_m (s : State) (b : Byte) (seed : Word) : (s.construct b seed).m = Memory.zeroBelow s.m (2 ^ b.toNat) := rfl
@[simp] theorem State.construct_mode (s : State) (b : Byte) (seed : Word) : (s.construct b seed).mode = s.mode := rfl
@[simp] theorem State.construct_h1 (s : State) (b : Byte) (seed : Word) : (s.construct b seed).h1 = s.h1 := rfl
@[simp] theorem State.construct_tail0 (s : State) (b : Byte) (seed : Word) : (s.construct b seed).tail0 = s.tail0 := rfl
@[simp] theorem State.construct_tail1 (s : State) (b : Byte) (seed : Word) : (s.construct b seed).tail1 = s.tail1 := rfl
@[simp] theorem State.construct_tail2 (s : State) (b : Byte) (seed : Word) : (s.construct b seed).tail2 = s.tail2 := rfl
@[simp] theorem State.construct_tcnt (s : State) (b : Byte) (seed : Word) : (s.construct b seed).tcnt = s.tcnt := rfl
@[simp] theorem State.construct_len (s : State) (b : Byte) (seed : Word) : (s.construct b seed).len = s.len := rfl
@[simp] theorem State.construct_cmdIn (s : State) (b : Byte) (seed : Word) : (s.construct b seed).cmdIn = s.cmdIn := rfl
@[simp] theorem State.construct_rspOut (s : State) (b : Byte) (seed : Word) : (s.construct b seed).rspOut = s.rspOut := rfl

/-! ### State.resetEvent -/

@[simp] theorem State.resetEvent_hseed (s : State) : (s.resetEvent).hseed = Config.seedDefault := rfl
@[simp] theorem State.resetEvent_eseed (s : State) : (s.resetEvent).eseed = Config.resetEseed := rfl
@[simp] theorem State.resetEvent_b (s : State) : (s.resetEvent).b = Config.resetB := rfl
@[simp] theorem State.resetEvent_cfgv (s : State) : (s.resetEvent).cfgv = false := rfl
@[simp] theorem State.resetEvent_m (s : State) : (s.resetEvent).m = [] := rfl
@[simp] theorem State.resetEvent_mode (s : State) : (s.resetEvent).mode = .idle := rfl
@[simp] theorem State.resetEvent_h1 (s : State) : (s.resetEvent).h1 = 0 := rfl
@[simp] theorem State.resetEvent_tail0 (s : State) : (s.resetEvent).tail0 = 0 := rfl
@[simp] theorem State.resetEvent_tail1 (s : State) : (s.resetEvent).tail1 = 0 := rfl
@[simp] theorem State.resetEvent_tail2 (s : State) : (s.resetEvent).tail2 = 0 := rfl
@[simp] theorem State.resetEvent_tcnt (s : State) : (s.resetEvent).tcnt = 0 := rfl
@[simp] theorem State.resetEvent_len (s : State) : (s.resetEvent).len = 0 := rfl
@[simp] theorem State.resetEvent_cmdIn (s : State) : (s.resetEvent).cmdIn = s.cmdIn := rfl
@[simp] theorem State.resetEvent_rspOut (s : State) : (s.resetEvent).rspOut = s.rspOut := rfl

/-! ### State.sendFirst -/

@[simp] theorem State.sendFirst_hseed (s : State) (w : CmdWord) : (s.sendFirst w).hseed = s.hseed := rfl
@[simp] theorem State.sendFirst_eseed (s : State) (w : CmdWord) : (s.sendFirst w).eseed = s.eseed := rfl
@[simp] theorem State.sendFirst_b (s : State) (w : CmdWord) : (s.sendFirst w).b = s.b := rfl
@[simp] theorem State.sendFirst_cfgv (s : State) (w : CmdWord) : (s.sendFirst w).cfgv = s.cfgv := rfl
@[simp] theorem State.sendFirst_m (s : State) (w : CmdWord) : (s.sendFirst w).m = s.m := rfl
@[simp] theorem State.sendFirst_mode (s : State) (w : CmdWord) : (s.sendFirst w).mode = s.mode := rfl
@[simp] theorem State.sendFirst_h1 (s : State) (w : CmdWord) : (s.sendFirst w).h1 = s.h1 := rfl
@[simp] theorem State.sendFirst_tail0 (s : State) (w : CmdWord) : (s.sendFirst w).tail0 = s.tail0 := rfl
@[simp] theorem State.sendFirst_tail1 (s : State) (w : CmdWord) : (s.sendFirst w).tail1 = s.tail1 := rfl
@[simp] theorem State.sendFirst_tail2 (s : State) (w : CmdWord) : (s.sendFirst w).tail2 = s.tail2 := rfl
@[simp] theorem State.sendFirst_tcnt (s : State) (w : CmdWord) : (s.sendFirst w).tcnt = s.tcnt := rfl
@[simp] theorem State.sendFirst_len (s : State) (w : CmdWord) : (s.sendFirst w).len = s.len := rfl
@[simp] theorem State.sendFirst_cmdIn (s : State) (w : CmdWord) : (s.sendFirst w).cmdIn = .command w :: s.cmdIn := rfl
@[simp] theorem State.sendFirst_rspOut (s : State) (w : CmdWord) : (s.sendFirst w).rspOut = s.rspOut := rfl

end Sys2Proof.Machine
end

