-- ==== Sys2Proof/Laws/Exec.lean ====
section
/-! SUPPORT. Everything a command can do: it is refused, and answers one status with nothing else changed, or it was admitted
and its effect is `effectOf`. Later proofs cite `exec_next` instead of unfolding the meanings. -/

namespace Sys2Proof.Machine

/-- The state elements a command leaves when it is carried out, before its response. -/
def effectOf : Instr → State → State
  | .setseed seed, s => { s with hseed := seed }
  | .hbegin, s => s.openMessage s.hseed .hash
  | .hend, s => s.closeMessage
  | .pushb byte, s => s.absorb byte
  | .pushw w, s => (wordBytes w).foldl State.absorb s
  | .mabort, s => s.closeMessage
  | .config b seed, s => s.construct b seed
  | .abegin, s => s.openMessage s.eseed .add
  | .aend, s => { s with m := updateCells s.m s.finalize s.b }.closeMessage
  | .clear, s => { s with m := Memory.zeroBelow s.m s.regCount }
  | .getseed, s | .estimate, s | .getm, s | .getb, s | .rdreg _, s => s

/-- What a command's own operand check requires. -/
def operandsPass : Instr → State → Prop
  | .pushb _, s => s.len.toNat + 1 ≤ maxLen
  | .pushw _, s => s.len.toNat + 4 ≤ maxLen
  | .config b _, _ => 4 ≤ b.toNat ∧ b.toNat ≤ 16
  | .rdreg i, s => i.toNat < s.regCount
  | .aend, s => regIndex s.finalize s.b < physCells
  | .clear, s => s.regCount ≤ physCells
  | _, _ => True

/-- A command that answers a next state was refused with one status, or was admitted and had its effect. -/
theorem exec_next {i : Instr} {s t : State} (h : exec i s = .next t) :
    (∃ st, st ≠ .ok ∧ t = s.answer ⟨st, 0⟩) ∨
      (admittedIn i s.mode = true ∧ (needsConfig i = true → s.cfgv = true) ∧ operandsPass i s ∧
        ∃ d, t = (effectOf i s).answer ⟨.ok, d⟩) := by
  have next_inj : ∀ {a b : State}, (Host.Outcome.next a : Result) = .next b → b = a := fun e => by
    injection e with e
    exact e.symm
  cases i with
  | setseed seed =>
    rcases whenIdle_next h with ⟨hm, hk⟩ | ⟨-, rfl⟩
    · exact .inr ⟨by simp [admittedIn, hm], by simp [needsConfig], trivial, 0, next_inj hk⟩
    · exact .inl ⟨_, by decide, rfl⟩
  | getseed =>
    rcases whenIdle_next h with ⟨hm, hk⟩ | ⟨-, rfl⟩
    · exact .inr ⟨by simp [admittedIn, hm], by simp [needsConfig], trivial, _, next_inj hk⟩
    · exact .inl ⟨_, by decide, rfl⟩
  | hbegin =>
    rcases whenIdle_next h with ⟨hm, hk⟩ | ⟨-, rfl⟩
    · exact .inr ⟨by simp [admittedIn, hm], by simp [needsConfig], trivial, 0, next_inj hk⟩
    · exact .inl ⟨_, by decide, rfl⟩
  | hend =>
    rcases whenPhase_next h with ⟨hm, hk⟩ | ⟨-, rfl⟩
    · exact .inr ⟨by simp [admittedIn, hm], by simp [needsConfig], trivial, _, next_inj hk⟩
    · exact .inl ⟨_, by decide, rfl⟩
  | pushb byte =>
    rcases whenOpen_next h with ⟨hm, hk⟩ | ⟨-, rfl⟩
    · rcases whenRoom_next hk with ⟨hr, hk⟩ | ⟨-, rfl⟩
      · exact .inr ⟨by simp [admittedIn, hm], by simp [needsConfig], hr, 0, next_inj hk⟩
      · exact .inl ⟨_, by decide, rfl⟩
    · exact .inl ⟨_, by decide, rfl⟩
  | pushw w =>
    rcases whenOpen_next h with ⟨hm, hk⟩ | ⟨-, rfl⟩
    · rcases whenRoom_next hk with ⟨hr, hk⟩ | ⟨-, rfl⟩
      · exact .inr ⟨by simp [admittedIn, hm], by simp [needsConfig], hr, 0, next_inj hk⟩
      · exact .inl ⟨_, by decide, rfl⟩
    · exact .inl ⟨_, by decide, rfl⟩
  | mabort =>
    rcases whenOpen_next h with ⟨hm, hk⟩ | ⟨-, rfl⟩
    · exact .inr ⟨by simp [admittedIn, hm], by simp [needsConfig], trivial, 0, next_inj hk⟩
    · exact .inl ⟨_, by decide, rfl⟩
  | config b seed =>
    rcases whenIdle_next h with ⟨hm, hk⟩ | ⟨-, rfl⟩
    · rcases whenPrecision_next hk with ⟨h4, h16, hk⟩ | ⟨-, rfl⟩
      · exact .inr ⟨by simp [admittedIn, hm], by simp [needsConfig], ⟨h4, h16⟩, 0, next_inj hk⟩
      · exact .inl ⟨_, by decide, rfl⟩
    · exact .inl ⟨_, by decide, rfl⟩
  | abegin =>
    rcases whenConfigured_next h with ⟨hm, hc, hk⟩ | ⟨-, rfl⟩ | ⟨-, -, rfl⟩
    · exact .inr ⟨by simp [admittedIn, hm], fun _ => hc, trivial, 0, next_inj hk⟩
    · exact .inl ⟨_, by decide, rfl⟩
    · exact .inl ⟨_, by decide, rfl⟩
  | aend =>
    rcases whenPhase_next h with ⟨hm, hk⟩ | ⟨-, rfl⟩
    · obtain ⟨hn, hk⟩ := withCells_next hk
      exact .inr ⟨by simp [admittedIn, hm], by simp [needsConfig], hn, 0, next_inj hk⟩
    · exact .inl ⟨_, by decide, rfl⟩
  | estimate =>
    rcases whenConfigured_next h with ⟨hm, hc, hk⟩ | ⟨-, rfl⟩ | ⟨-, -, rfl⟩
    · obtain ⟨-, hk⟩ := withCells_next hk
      split at hk
      · cases hk
      · split at hk
        · exact .inr ⟨by simp [admittedIn, hm], fun _ => hc, trivial, _, next_inj hk⟩
        · exact .inl ⟨.range, by decide, next_inj hk⟩
    · exact .inl ⟨_, by decide, rfl⟩
    · exact .inl ⟨_, by decide, rfl⟩
  | clear =>
    rcases whenConfigured_next h with ⟨hm, hc, hk⟩ | ⟨-, rfl⟩ | ⟨-, -, rfl⟩
    · obtain ⟨hn, hk⟩ := withCells_next hk
      exact .inr ⟨by simp [admittedIn, hm], fun _ => hc, hn, 0, next_inj hk⟩
    · exact .inl ⟨_, by decide, rfl⟩
    · exact .inl ⟨_, by decide, rfl⟩
  | getm =>
    rcases whenConfigured_next h with ⟨hm, hc, hk⟩ | ⟨-, rfl⟩ | ⟨-, -, rfl⟩
    · exact .inr ⟨by simp [admittedIn, hm], fun _ => hc, trivial, _, next_inj hk⟩
    · exact .inl ⟨_, by decide, rfl⟩
    · exact .inl ⟨_, by decide, rfl⟩
  | getb =>
    rcases whenConfigured_next h with ⟨hm, hc, hk⟩ | ⟨-, rfl⟩ | ⟨-, -, rfl⟩
    · exact .inr ⟨by simp [admittedIn, hm], fun _ => hc, trivial, _, next_inj hk⟩
    · exact .inl ⟨_, by decide, rfl⟩
    · exact .inl ⟨_, by decide, rfl⟩
  | rdreg i =>
    rcases whenConfigured_next h with ⟨hm, hc, hk⟩ | ⟨-, rfl⟩ | ⟨-, -, rfl⟩
    · rcases whenIndex_next hk with ⟨hi, hk⟩ | ⟨-, rfl⟩
      · obtain ⟨-, hk⟩ := withCells_next hk
        exact .inr ⟨by simp [admittedIn, hm], fun _ => hc, hi, _, next_inj hk⟩
      · exact .inl ⟨_, by decide, rfl⟩
    · exact .inl ⟨_, by decide, rfl⟩
    · exact .inl ⟨_, by decide, rfl⟩

end Sys2Proof.Machine
end

