-- ==== Sys2Proof/Laws/Float.lean ====
section
/-! SUPPORT. What the binary64 operations of Machine/Float.lean do, over the rationals and the reals: the binade of a number,
the neighbours `down64` and `up64`, rounding to nearest, and the enclosure of the logarithm. -/

namespace Sys2Proof.Machine

theorem twoPow_eq_zpow (e : Int) : twoPow e = (2 : ℚ) ^ e := by
  cases e with
  | ofNat k => simp [twoPow, Rat.mkRat_eq_div]
  | negSucc k => simp [twoPow, Rat.mkRat_eq_div, zpow_negSucc]

theorem twoPow_pos (e : Int) : 0 < twoPow e := by
  rw [twoPow_eq_zpow]
  positivity

theorem twoPow_add (e f : Int) : twoPow (e + f) = twoPow e * twoPow f := by
  simp only [twoPow_eq_zpow]
  exact zpow_add₀ two_ne_zero e f

theorem twoPow_le {e f : Int} (h : e ≤ f) : twoPow e ≤ twoPow f := by
  simp only [twoPow_eq_zpow]
  exact zpow_le_zpow_right₀ one_le_two h

theorem twoPow_lt_iff {e f : Int} : twoPow e < twoPow f ↔ e < f := by
  simp only [twoPow_eq_zpow]
  exact zpow_lt_zpow_iff_right₀ one_lt_two

/-- The binade of a non-zero number is the one its magnitude lies in. -/
theorem binade_spec {q : ℚ} (hq : q ≠ 0) : twoPow (binade q) ≤ |q| ∧ |q| < twoPow (binade q + 1) := by
  have ha : q.num.natAbs ≠ 0 := by simpa using hq
  have hd : q.den ≠ 0 := q.den_nz
  have hdq : (0 : ℚ) < q.den := by exact_mod_cast q.den_pos
  have habs : |q| = (q.num.natAbs : ℚ) / q.den := by
    rw [Rat.abs_def, Rat.divInt_eq_div]
    simp
  have ha1 : ((2 : ℚ) ^ (q.num.natAbs.log2 : ℤ)) ≤ q.num.natAbs := by
    rw [zpow_natCast]
    exact_mod_cast Nat.log2_self_le ha
  have ha2 : (q.num.natAbs : ℚ) < 2 ^ ((q.num.natAbs.log2 : ℤ) + 1) := by
    have := Nat.lt_log2_self (n := q.num.natAbs)
    exact_mod_cast this
  have hd1 : ((2 : ℚ) ^ (q.den.log2 : ℤ)) ≤ q.den := by
    rw [zpow_natCast]
    exact_mod_cast Nat.log2_self_le hd
  have hd2 : (q.den : ℚ) < 2 ^ ((q.den.log2 : ℤ) + 1) := by
    have := Nat.lt_log2_self (n := q.den)
    exact_mod_cast this
  rw [habs]
  unfold binade
  simp only [twoPow_eq_zpow, Rat.mkRat_eq_div, Int.cast_natCast, Nat.cast_one, div_one]
  split
  · next h =>
    refine ⟨(le_div_iff₀ hdq).mpr h, (div_lt_iff₀ hdq).mpr (ha2.trans_le ?_)⟩
    calc (2 : ℚ) ^ ((q.num.natAbs.log2 : ℤ) + 1)
        = 2 ^ ((q.num.natAbs.log2 : ℤ) - q.den.log2 + 1) * 2 ^ (q.den.log2 : ℤ) := by
          rw [← zpow_add₀ two_ne_zero]
          congr 1
          ring
      _ ≤ _ := by gcongr
  · next h =>
    rw [not_le] at h
    refine ⟨(le_div_iff₀ hdq).mpr (le_trans ?_ ha1), (div_lt_iff₀ hdq).mpr (by simpa using h)⟩
    calc (2 : ℚ) ^ ((q.num.natAbs.log2 : ℤ) - q.den.log2 - 1) * q.den
        ≤ 2 ^ ((q.num.natAbs.log2 : ℤ) - q.den.log2 - 1) * 2 ^ ((q.den.log2 : ℤ) + 1) := by gcongr
      _ = 2 ^ (q.num.natAbs.log2 : ℤ) := by
          rw [← zpow_add₀ two_ne_zero]
          congr 1
          ring

/-- The binade is the only one its magnitude lies in. -/
theorem binade_unique {q : ℚ} {e : ℤ} (h1 : twoPow e ≤ |q|) (h2 : |q| < twoPow (e + 1)) : binade q = e := by
  have hq : q ≠ 0 := by
    rintro rfl
    have := twoPow_pos e
    simp at h1
    linarith
  obtain ⟨h3, h4⟩ := binade_spec hq
  have h5 : binade q < e + 1 := twoPow_lt_iff.mp (h3.trans_lt h2)
  have h6 : e < binade q + 1 := twoPow_lt_iff.mp (h1.trans_lt h4)
  omega

theorem ulp_pos (q : ℚ) : 0 < ulp q := twoPow_pos _

theorem ratFloor_eq (q : ℚ) : q.floor = ⌊q⌋ := rfl

/-- `down64 q` is at most `q` and less than one unit below it. -/
theorem down64_spec (q : ℚ) : down64 q ≤ q ∧ q < down64 q + ulp q := by
  unfold down64
  split
  · next h =>
    subst h
    exact ⟨le_rfl, by simpa using ulp_pos 0⟩
  · have hu := ulp_pos q
    simp only [Rat.mkRat_eq_div, Nat.cast_one, div_one, ratFloor_eq]
    constructor
    · exact (le_div_iff₀ hu).mp (Int.floor_le _)
    · have := (div_lt_iff₀ hu).mp (Int.lt_floor_add_one (q / ulp q))
      linarith

theorem binade_neg (q : ℚ) : binade (-q) = binade q := by
  simp [binade]

theorem ulp_neg (q : ℚ) : ulp (-q) = ulp q := by
  simp [ulp, binade_neg]

/-- `up64 q` is at least `q` and less than one unit above it. -/
theorem up64_spec (q : ℚ) : q ≤ up64 q ∧ up64 q < q + ulp q := by
  obtain ⟨h1, h2⟩ := down64_spec (-q)
  rw [ulp_neg] at h2
  exact ⟨by unfold up64; linarith, by unfold up64; linarith⟩

/-- Rounding an exact quotient to the nearest integer moves it by at most one half. -/
theorem roundHalfEven_spec (q : ℚ) : |(roundHalfEven q : ℚ) - q| ≤ 1 / 2 := by
  unfold roundHalfEven
  simp only [Rat.mkRat_eq_div, Int.cast_one, Nat.cast_ofNat, Nat.cast_one, div_one, ratFloor_eq]
  have h1 := Int.floor_le q
  have h2 := Int.lt_floor_add_one q
  rw [abs_le]
  split
  · constructor <;> linarith
  · split
    · push_cast
      constructor <;> linarith
    · rcases Int.emod_two_eq_zero_or_one ⌊q⌋ with h | h
      · simp only [h, if_true]
        constructor <;> linarith
      · simp only [h, one_ne_zero, if_false]
        push_cast
        constructor <;> linarith

/-- Rounding to binary64 moves a number by at most half a unit in its last place. -/
theorem round64_spec (q : ℚ) : |round64 q - q| ≤ ulp q / 2 := by
  unfold round64
  split
  · next h =>
    subst h
    have := ulp_pos 0
    simp only [sub_self, abs_zero]
    linarith
  · have hu := ulp_pos q
    have h := roundHalfEven_spec (q / ulp q)
    simp only [Rat.mkRat_eq_div, Nat.cast_one, div_one]
    have : (roundHalfEven (q / ulp q) : ℚ) * ulp q - q = ((roundHalfEven (q / ulp q) : ℚ) - q / ulp q) * ulp q := by
      field_simp
    rw [this, abs_mul, abs_of_pos hu]
    nlinarith

/-! ### The logarithm -/

theorem artanhSum_eq (z : ℚ) (n : ℕ) :
    artanhSum z n = ∑ i ∈ Finset.range n, z ^ (2 * i + 1) / (2 * i + 1) := by
  induction n with
  | zero => rfl
  | succ n ih =>
    rw [artanhSum, ih, Finset.sum_range_succ]
    simp [Rat.mkRat_eq_div]

/-- The partial sum and its rest enclose `artanh z`, for `0 ≤ z < 1`. -/
theorem artanhSum_encloses {z : ℚ} (h0 : 0 ≤ z) (h1 : z < 1) (n : ℕ) :
    (artanhSum z n : ℝ) ≤ 1 / 2 * Real.log ((1 + z) / (1 - z)) ∧
      1 / 2 * Real.log ((1 + z) / (1 - z)) ≤ (artanhSum z n : ℝ) + (artanhRest z n : ℝ) := by
  have h0' : (0 : ℝ) ≤ z := by exact_mod_cast h0
  have h1' : (z : ℝ) < 1 := by exact_mod_cast h1
  have hs : (artanhSum z n : ℝ) = ∑ i ∈ Finset.range n, (z : ℝ) ^ (2 * i + 1) / (2 * i + 1) := by
    rw [artanhSum_eq]
    push_cast
    rfl
  rw [hs]
  constructor
  · exact Real.sum_range_le_log_div h0' h1' n
  · have := Real.log_div_le_sum_range_add h0' h1' n
    simpa [artanhRest, sq] using this

/-- For `1 ≤ x` the bounds enclose the logarithm. -/
theorem lnBoundsAbove_encloses {x : ℚ} (hx : 1 ≤ x) :
    ((lnBoundsAbove x).1 : ℝ) ≤ Real.log x ∧ Real.log x ≤ ((lnBoundsAbove x).2 : ℝ) := by
  have hx0 : x ≠ 0 := by linarith
  obtain ⟨hb1, hb2⟩ := binade_spec hx0
  rw [abs_of_pos (by linarith)] at hb1 hb2
  set e := binade x with he
  have hp := twoPow_pos e
  have he0 : 0 ≤ e := by
    by_contra hneg
    have : twoPow (e + 1) ≤ twoPow 0 := twoPow_le (by omega)
    rw [twoPow_eq_zpow 0, zpow_zero] at this
    linarith
  set t := x / twoPow e with ht
  have ht1 : 1 ≤ t := (one_le_div hp).mpr hb1
  have ht2 : t < 2 := by
    rw [twoPow_add] at hb2
    rw [ht, div_lt_iff₀ hp]
    have : twoPow 1 = 2 := by rw [twoPow_eq_zpow, zpow_one]
    nlinarith
  set z := (t - 1) / (t + 1) with hz
  have hz0 : 0 ≤ z := div_nonneg (by linarith) (by linarith)
  have hz1 : z < 1 := by rw [hz, div_lt_one (by linarith)]; linarith
  have key : ∀ {y : ℚ}, 0 < y → (1 + ((((y - 1) / (y + 1) : ℚ)) : ℝ)) / (1 - (((y - 1) / (y + 1) : ℚ) : ℝ)) = y := by
    intro y hy
    have : (0 : ℝ) < y := by exact_mod_cast hy
    push_cast
    field_simp
    ring_nf
  have h2 := artanhSum_encloses (z := mkRat 1 3) (by norm_num [Rat.mkRat_eq_div]) (by norm_num [Rat.mkRat_eq_div]) lnTerms
  have h2' : (1 + ((mkRat 1 3 : ℚ) : ℝ)) / (1 - ((mkRat 1 3 : ℚ) : ℝ)) = 2 := by
    norm_num [Rat.mkRat_eq_div]
  rw [h2'] at h2
  have h3 := artanhSum_encloses hz0 hz1 lnTerms
  rw [hz, key (by linarith), ← hz] at h3
  have hlog : Real.log x = e * Real.log 2 + Real.log t := by
    have hxt : (x : ℝ) = (2 : ℝ) ^ e * t := by
      rw [ht]
      push_cast
      rw [twoPow_eq_zpow]
      push_cast
      field_simp
    rw [hxt, Real.log_mul (by positivity) (by
      have : (0 : ℝ) < t := by exact_mod_cast (by linarith : (0 : ℚ) < t)
      exact this.ne'), Real.log_zpow]
  have he0' : (0 : ℝ) ≤ e := by exact_mod_cast he0
  have hm : ((mkRat e 1 : ℚ) : ℝ) = e := by simp [Rat.mkRat_eq_div]
  rw [hlog]
  simp only [lnBoundsAbove, ← he, ← ht, ← hz]
  push_cast
  rw [hm]
  have h4 := mul_le_mul_of_nonneg_left h2.1 he0'
  have h5 := mul_le_mul_of_nonneg_left h2.2 he0'
  obtain ⟨h6, h7⟩ := h3
  clear_value z t
  generalize ((artanhSum (mkRat 1 3) lnTerms : ℚ) : ℝ) = a at *
  generalize ((artanhRest (mkRat 1 3) lnTerms : ℚ) : ℝ) = r at *
  generalize ((artanhSum z lnTerms : ℚ) : ℝ) = az at *
  generalize ((artanhRest z lnTerms : ℚ) : ℝ) = rz at *
  generalize Real.log 2 = l2 at *
  generalize Real.log t = lt at *
  generalize (e : ℝ) = er at *
  constructor <;> linarith

/-- The bounds enclose the logarithm of every positive number. -/
theorem lnBounds_encloses {x : ℚ} (hx : 0 < x) :
    ((lnBounds x).1 : ℝ) ≤ Real.log x ∧ Real.log x ≤ ((lnBounds x).2 : ℝ) := by
  unfold lnBounds
  split
  · next h => exact lnBoundsAbove_encloses h
  · next h =>
    rw [not_le] at h
    obtain ⟨h1, h2⟩ := lnBoundsAbove_encloses (x := 1 / x) (by rw [le_div_iff₀ hx]; linarith)
    have : Real.log ((1 / x : ℚ) : ℝ) = -Real.log x := by
      push_cast
      rw [one_div, Real.log_inv]
    rw [this] at h1 h2
    push_cast
    constructor <;> linarith

end Sys2Proof.Machine
end

