-- ==== Sys2Proof/Laws/Memory.lean ====
section
/-! SUPPORT. The laws of the register file: every operation keeps the canonical form, a read after a write gives the value
written, and a write leaves every other cell alone. -/

namespace Sys2Proof.Machine

@[simp] theorem Memory.read_nil (j : Nat) : Memory.read [] j = 0 := rfl

@[simp] theorem Memory.wf_nil : Memory.wf [] = true := rfl

/-- The canonical form of a list, taken apart at its head. -/
theorem Memory.wf_cons {c : Host.Cell} {rest : List Host.Cell} :
    Memory.wf (c :: rest) = true ↔
      c.1 < physCells ∧ c.2 ≠ 0 ∧ (∀ d ∈ rest, c.1 < d.1) ∧ Memory.wf rest = true := by
  simp [Memory.wf, and_assoc]

/-- A cell that no entry names reads as 0. -/
theorem Memory.read_eq_zero_of_unlisted {m : List Host.Cell} {j : Nat} (h : ∀ c ∈ m, c.1 ≠ j) :
    Memory.read m j = 0 := by
  induction m with
  | nil => rfl
  | cons c rest ih =>
    rw [Memory.read, if_neg (h c List.mem_cons_self)]
    exact ih fun d hd => h d (List.mem_cons_of_mem _ hd)

/-- Where every entry lies above `j`, cell `j` reads as 0. -/
theorem Memory.read_eq_zero_of_below {m : List Host.Cell} {j : Nat} (h : ∀ c ∈ m, j < c.1) :
    Memory.read m j = 0 :=
  Memory.read_eq_zero_of_unlisted fun c hc => (h c hc).ne'

/-- In canonical form, reading a listed cell gives its entry. -/
theorem Memory.read_of_mem {m : List Host.Cell} (hm : Memory.wf m = true) {c : Host.Cell} (hc : c ∈ m) :
    Memory.read m c.1 = c.2 := by
  induction m with
  | nil => cases hc
  | cons d rest ih =>
    obtain ⟨-, -, habove, hrest⟩ := Memory.wf_cons.mp hm
    rcases List.mem_cons.mp hc with rfl | hc
    · simp [Memory.read]
    · rw [Memory.read, if_neg (habove c hc).ne]
      exact ih hrest hc

/-- Every index listed after a write was listed before, or is the one written. -/
theorem Memory.mem_write {m : List Host.Cell} {j : Nat} {v : Byte} {c : Host.Cell}
    (hc : c ∈ Memory.write m j v) : c ∈ m ∨ c = (j, v) := by
  induction m with
  | nil =>
    simp only [Memory.write] at hc
    split at hc <;> simp_all
  | cons d rest ih =>
    simp only [Memory.write] at hc
    split at hc
    · rcases List.mem_cons.mp hc with rfl | hc
      · exact .inl List.mem_cons_self
      · exact (ih hc).imp_left (List.mem_cons_of_mem _)
    · split at hc <;> split at hc <;> simp_all <;> tauto

/-- A write inside the file keeps the canonical form. -/
theorem Memory.wf_write {m : List Host.Cell} (hm : Memory.wf m = true) {j : Nat} (hj : j < physCells) (v : Byte) :
    Memory.wf (Memory.write m j v) = true := by
  induction m with
  | nil =>
    simp only [Memory.write]
    split
    · rfl
    · next hv => exact Memory.wf_cons.mpr ⟨hj, hv, by simp, rfl⟩
  | cons c rest ih =>
    obtain ⟨hc, hc0, habove, hrest⟩ := Memory.wf_cons.mp hm
    simp only [Memory.write]
    split
    · next hlt =>
      refine Memory.wf_cons.mpr ⟨hc, hc0, fun d hd => ?_, ih hrest⟩
      rcases Memory.mem_write hd with hd | rfl
      · exact habove d hd
      · exact hlt
    · next hlt =>
      split <;> split
      · exact hrest
      · exact hm
      · next hv heq => exact Memory.wf_cons.mpr ⟨hj, hv, fun d hd => heq ▸ habove d hd, hrest⟩
      · next hv hne =>
        refine Memory.wf_cons.mpr ⟨hj, hv, fun d hd => ?_, hm⟩
        rcases List.mem_cons.mp hd with rfl | hd
        · omega
        · have := habove d hd
          omega

/-- A read after a write: the value written at its cell, the old value elsewhere. -/
theorem Memory.read_write {m : List Host.Cell} (hm : Memory.wf m = true) (j : Nat) (v : Byte) (k : Nat) :
    Memory.read (Memory.write m j v) k = if k = j then v else Memory.read m k := by
  induction m with
  | nil =>
    simp only [Memory.write]
    split
    · next hv => simp [hv]
    · simp only [Memory.read, eq_comm]
  | cons c rest ih =>
    obtain ⟨-, -, habove, hrest⟩ := Memory.wf_cons.mp hm
    simp only [Memory.write]
    split
    · next hlt =>
      simp only [Memory.read, ih hrest]
      split <;> split <;> first | rfl | omega
    · next hlt =>
      by_cases hk : k = j
      · subst hk
        have hr : Memory.read rest k = 0 := Memory.read_eq_zero_of_below fun d hd => by
          have := habove d hd
          omega
        by_cases hv : v = 0#8 <;> by_cases hck : c.1 = k <;> simp [Memory.read, hv, hck, hr]
      · by_cases hv : v = 0#8 <;> by_cases hck : c.1 = j
        all_goals simp [Memory.read, hv, hck, hk, Ne.symm hk]

/-- Zeroing the cells below `n` keeps the canonical form. -/
theorem Memory.wf_zeroBelow {m : List Host.Cell} (hm : Memory.wf m = true) (n : Nat) :
    Memory.wf (Memory.zeroBelow m n) = true := by
  induction m with
  | nil => rfl
  | cons c rest ih =>
    obtain ⟨hc, hc0, habove, hrest⟩ := Memory.wf_cons.mp hm
    simp only [Memory.zeroBelow, List.filter_cons]
    split
    · exact Memory.wf_cons.mpr ⟨hc, hc0, fun d hd => habove d (List.mem_of_mem_filter hd), ih hrest⟩
    · exact ih hrest

/-- A read after zeroing: 0 below `n`, the old value elsewhere. -/
theorem Memory.read_zeroBelow (m : List Host.Cell) (n k : Nat) :
    Memory.read (Memory.zeroBelow m n) k = if k < n then 0 else Memory.read m k := by
  induction m with
  | nil => simp [Memory.zeroBelow]
  | cons c rest ih =>
    simp only [Memory.zeroBelow] at ih
    simp only [Memory.zeroBelow, List.filter_cons, decide_eq_true_eq, Memory.read]
    split
    · simp only [Memory.read, ih]
      split <;> split <;> first | rfl | omega
    · rw [ih]
      have : k < n ∨ c.1 ≠ k := by omega
      split <;> simp_all

/-- Two files in canonical form that read alike are the same list. -/
theorem Memory.ext {m n : List Host.Cell} (hm : Memory.wf m = true) (hn : Memory.wf n = true)
    (h : ∀ j, Memory.read m j = Memory.read n j) : m = n := by
  induction m generalizing n with
  | nil =>
    cases n with
    | nil => rfl
    | cons d ds =>
      have h0 := Memory.wf_cons.mp hn
      have h1 := h d.1
      simp [Memory.read] at h1
      exact absurd h1.symm h0.2.1
  | cons c cs ih =>
    obtain ⟨-, hc0, hca, hcs⟩ := Memory.wf_cons.mp hm
    cases n with
    | nil =>
      have h1 := h c.1
      simp [Memory.read] at h1
      exact absurd h1 hc0
    | cons d ds =>
      obtain ⟨-, hd0, hda, hds⟩ := Memory.wf_cons.mp hn
      have hcd : c.1 = d.1 := by
        rcases lt_trichotomy c.1 d.1 with hlt | heq | hlt
        · have h1 := h c.1
          rw [Memory.read, if_pos rfl, Memory.read_eq_zero_of_below (m := d :: ds)] at h1
          · exact absurd h1 hc0
          · intro e he
            rcases List.mem_cons.mp he with rfl | he
            · exact hlt
            · exact hlt.trans (hda e he)
        · exact heq
        · have h1 := h d.1
          rw [Memory.read_eq_zero_of_below (m := c :: cs), Memory.read, if_pos rfl] at h1
          · exact absurd h1.symm hd0
          · intro e he
            rcases List.mem_cons.mp he with rfl | he
            · exact hlt
            · exact hlt.trans (hca e he)
      have hval : c.2 = d.2 := by
        have h1 := h c.1
        simpa [Memory.read, hcd] using h1
      have htail : cs = ds := ih hcs hds fun j => by
        have h1 := h j
        simp only [Memory.read] at h1
        by_cases hj : c.1 = j
        · rw [Memory.read_eq_zero_of_below fun e he => hj ▸ hca e he,
            Memory.read_eq_zero_of_below fun e he => hj ▸ hcd ▸ hda e he]
        · rwa [if_neg hj, if_neg (hcd ▸ hj)] at h1
      rw [htail, Prod.ext hcd hval]

end Sys2Proof.Machine
end

