-- ==== Sys2Proof/Laws/Mixer.lean ====
section
/-! SUPPORT. Byte assembly and the message steps: what packing a word into bytes and back does, and how one block and one tail
byte enter the hash. -/

namespace Sys2Proof.Machine

/-- The block word of the four bytes of a PUSHW operand is the operand (40 R114). -/
theorem leWord_wordBytes (w : Word) :
    leWord (w.extractLsb' 0 8) (w.extractLsb' 8 8) (w.extractLsb' 16 8) (w.extractLsb' 24 8) = w := by
  apply BitVec.eq_of_getLsbD_eq
  intro i hi
  simp only [leWord, BitVec.getLsbD_or, BitVec.getLsbD_shiftLeft, BitVec.getLsbD_setWidth, BitVec.getLsbD_extractLsb']
  interval_cases i <;> simp

@[simp] theorem hashBody_nil (h : Word) : hashBody h [] = h := rfl

@[simp] theorem hashBody_block (h : Word) (b0 b1 b2 b3 : Byte) (rest : List Byte) :
    hashBody h (b0 :: b1 :: b2 :: b3 :: rest) = hashBody (blockmix h (leWord b0 b1 b2 b3)) rest := rfl

@[simp] theorem hashBody_one (h : Word) (b0 : Byte) : hashBody h [b0] = h ^^^ mixk (leWord b0 0 0 0) := rfl

@[simp] theorem hashBody_two (h : Word) (b0 b1 : Byte) :
    hashBody h [b0, b1] = h ^^^ mixk (leWord b0 b1 0 0) := rfl

@[simp] theorem hashBody_three (h : Word) (b0 b1 b2 : Byte) :
    hashBody h [b0, b1, b2] = h ^^^ mixk (leWord b0 b1 b2 0) := rfl

end Sys2Proof.Machine
end

