-- ==== Sys2Proof/Laws/PerInstr.lean ====
section
/-! SUPPORT. What holds of every command as syntax: its word is selected by the opcode map's row of its mnemonic. -/

namespace Sys2Proof.Laws.EncodesToRow

/-- The word of `i` is selected by the row of its own mnemonic (30_encoding.md R62, R64). -/
def Statement (i : Instr) : Prop := ∃ r ∈ opcodeMap, r.mnemonic = mnemonicOf i ∧ r.selects (encode i) = true

theorem cmdWord_and (a x : Byte) (b y : Byte) (c z : Word) :
    cmdWord a b c &&& cmdWord x y z = cmdWord (a &&& x) (b &&& y) (c &&& z) := by
  apply BitVec.eq_of_getLsbD_eq
  intro i hi
  simp only [cmdWord, BitVec.getLsbD_and, BitVec.getLsbD_append]
  split
  · split <;> rfl
  · rfl

/-- The mask of a format keeps the opcode and the fields that must be 0. -/
theorem cmdWord_and_mask (f : Format) (op aux : Byte) (arg : Word) :
    cmdWord op aux arg &&& f.mask =
      cmdWord op (if f = .X ∨ f = .XA then 0 else aux) (if f = .A ∨ f = .XA then 0 else arg) := by
  have hm : f.mask =
      cmdWord 0xFF (if f = .X ∨ f = .XA then 0 else 0xFF) (if f = .A ∨ f = .XA then 0 else 0xFFFFFFFF) := by
    cases f <;> decide
  have h8 : ∀ x : Byte, x &&& 0xFF#8 = x := fun _ => BitVec.and_allOnes
  have h32 : ∀ x : Word, x &&& 0xFFFFFFFF#32 = x := fun _ => BitVec.and_allOnes
  rw [hm, cmdWord_and]
  cases f <;> simp [h8, h32]

theorem pattern_eq : ∀ op : Byte, op.setWidth 48 <<< 40 = cmdWord op 0 0 := by
  decide +kernel

/-- A row selects the words of its opcode whose unused fields are 0. -/
theorem selects_cmdWord (k : Mnemonic) (op : Byte) (f : Format) (aux : Byte) (arg : Word)
    (ha : f = .X ∨ f = .XA ∨ aux = 0) (hg : f = .A ∨ f = .XA ∨ arg = 0) :
    OpRow.selects ⟨k, op, f⟩ (cmdWord op aux arg) = true := by
  rw [OpRow.selects, OpRow.pattern, cmdWord_and_mask, pattern_eq]
  cases f <;> simp_all

theorem setseed (seed : Word) : Statement (.setseed seed) :=
  ⟨⟨.SETSEED, 0x01#8, .A⟩, by decide, rfl, selects_cmdWord _ _ _ _ _ (by simp) (by simp)⟩

theorem getseed : Statement .getseed := by unfold Statement; decide

theorem hbegin : Statement .hbegin := by unfold Statement; decide

theorem hend : Statement .hend := by unfold Statement; decide

theorem pushb (byte : Byte) : Statement (.pushb byte) :=
  ⟨⟨.PUSHB, 0x08#8, .X⟩, by decide, rfl, selects_cmdWord _ _ _ _ _ (by simp) (by simp)⟩

theorem pushw (w : Word) : Statement (.pushw w) :=
  ⟨⟨.PUSHW, 0x09#8, .A⟩, by decide, rfl, selects_cmdWord _ _ _ _ _ (by simp) (by simp)⟩

theorem mabort : Statement .mabort := by unfold Statement; decide

theorem config (b : Byte) (seed : Word) : Statement (.config b seed) :=
  ⟨⟨.CONFIG, 0x10#8, .XA⟩, by decide, rfl, selects_cmdWord _ _ _ _ _ (by simp) (by simp)⟩

theorem abegin : Statement .abegin := by unfold Statement; decide

theorem aend : Statement .aend := by unfold Statement; decide

theorem estimate : Statement .estimate := by unfold Statement; decide

theorem clear : Statement .clear := by unfold Statement; decide

theorem getm : Statement .getm := by unfold Statement; decide

theorem getb : Statement .getb := by unfold Statement; decide

theorem rdreg (index : Word) : Statement (.rdreg index) :=
  ⟨⟨.RDREG, 0x17#8, .A⟩, by decide, rfl, selects_cmdWord _ _ _ _ _ (by simp) (by simp)⟩

end Sys2Proof.Laws.EncodesToRow
end

