-- ==== Sys2Proof/Tests/Slice0.lean ====
section
/-! SUPPORT. Tests of the model against the spec's own words, examples and vectors (95_test_vectors.md, cited as V with its
section), and for every statement of Certificates/Slice0/Obligations.lean with hypotheses a witness that meets them. -/

namespace Sys2Proof.Machine.Tests

/-! ### Small states -/

/-- A configured block, no message open: B = 4, both seeds 42, M[11] = 3 (V 4.2). -/
def idle0 : State where
  hseed := 42
  eseed := 42
  b := 4
  cfgv := true
  m := [(11, 3)]
  mode := .idle
  h1 := 0
  tail0 := 0
  tail1 := 0
  tail2 := 0
  tcnt := 0
  len := 0
  cmdIn := []
  rspOut := []

/-- The same before any CONFIG. -/
def bare0 : State := { idle0 with cfgv := false }

/-- A message open for the hash engine, after `bytes` bytes of which `tcnt` are in TAIL (V 4.1). -/
def hash0 (tcnt : BitVec 2) (len : Word) : State :=
  { idle0 with mode := .hash, h1 := 0x2a, tail0 := 0x61, tail1 := 0x62, tail2 := 0x63, tcnt := tcnt, len := len }

/-- A message open for the estimator holding the one byte `item`. -/
def add0 (item : Byte) : State :=
  { idle0 with mode := .add, h1 := 0x2a, tail0 := item, tcnt := 1, len := 1 }

/-- Sixteen cells that all hold `v`, B = 4. -/
def full0 (v : Byte) : State := { idle0 with m := (List.range 16).map fun j => (j, v) }

/-- The state after one step, if it answers one. -/
def stepped (s : State) : Option State :=
  match step s with
  | .next t => some t
  | .fault _ => none
  | .refused _ => none

/-- The state after one step on a word. -/
def after (s : State) (w : CmdWord) : Option State := stepped (s.sendFirst w)

/-- The responses after one step on a word. -/
def answers (s : State) (w : CmdWord) : Option (List Response) := (after s w).map fun t => t.rspOut

/-! ### Decoding and encoding -/

/-- The example words of the command rules and of V 4 and V 6, one or more per command. -/
def wordTable : List (CmdWord × Instr) :=
  [(0x01000000002A#48, .setseed 42), (0x0100FFFFFFFF#48, .setseed 0xffffffff), (0x020000000000#48, .getseed),
   (0x030000000000#48, .hbegin), (0x040000000000#48, .hend), (0x086100000000#48, .pushb 0x61),
   (0x090066656463#48, .pushw 0x66656463), (0x0A0000000000#48, .mabort)] ++
  [(0x10040000002A#48, .config 4 42), (0x10FF00000000#48, .config 255 0), (0x110000000000#48, .abegin),
   (0x120000000000#48, .aend), (0x130000000000#48, .estimate), (0x140000000000#48, .clear),
   (0x150000000000#48, .getm), (0x160000000000#48, .getb), (0x170000000010#48, .rdreg 16)]

/-- V 4, V 6: the words decode to their commands, as table words too. -/
theorem test_decode_words :
    ∀ p ∈ wordTable, decodeTableWord 48 p.1.toNat = some p.2 ∧ encode p.2 = p.1 := by decide +kernel

/-- The word of PUSHB 0x61 bit by bit: op 00001000, aux 01100001, arg 0 (R60, R64). -/
theorem test_decode_bits :
    decodeTableWord 48 0b000010000110000100000000000000000000000000000000 = some (.pushb 0x61) := by decide

/-- The word of CONFIG 14, 42 bit by bit: op 00010000, aux 00001110, arg 101010. -/
theorem test_decode_bits_xa :
    decodeTableWord 48 0b000100000000111000000000000000000000000000101010 = some (.config 14 42) := by decide

/-- The word of ESTIMATE bit by bit: op 00010011. -/
theorem test_decode_bits_n :
    decodeTableWord 48 0b000100110000000000000000000000000000000000000000 = some .estimate := by decide

/-- V 6 P3 rows 13 to 18: six words that are no commands. -/
theorem test_decode_illegal :
    [0x000000000000, 0x050000000000, 0x020000000001, 0x080000000100, 0x130100000000, 0xFF0000000000].all
      (fun w => decodeTableWord 48 w == none) = true := by decide +kernel

/-- R200, R61: a response word has its status on top of its data. -/
theorem test_responseWord : responseWord ⟨.index, 0x2a⟩ = 0x5000000000000002A#68 ∧ modeCode .add = 2 := by decide

/-! ### Well-formedness: an ill-formed term for each check -/

/-- R66 (a): an opcode that is none of the fifteen, here a neighbour of each range. -/
theorem test_illformed_opcode :
    [0x00, 0x05, 0x07, 0x0B, 0x0F, 0x18, 0xFF].all (fun op => !CmdWord.legal (cmdWord op 0 0)) = true := by
  decide +kernel

/-- R66 (b): `aux` not 0 in formats N and A. -/
theorem test_illformed_aux :
    CmdWord.legal 0x020100000000#48 = false ∧ CmdWord.legal 0x010100000000#48 = false ∧
    CmdWord.legal 0x178000000000#48 = false := by decide

/-- R66 (b): `arg` not 0 in formats N and X. -/
theorem test_illformed_arg :
    CmdWord.legal 0x020000000001#48 = false ∧ CmdWord.legal 0x080000000100#48 = false ∧
    CmdWord.legal 0x0A0080000000#48 = false := by decide

/-- R69: an operand outside its field, and operands that are too many or too few. -/
theorem test_illformed_line :
    AsmLine.wellFormed ⟨.PUSHB, [256]⟩ = false ∧ AsmLine.wellFormed ⟨.SETSEED, [4294967296]⟩ = false ∧
    AsmLine.wellFormed ⟨.CONFIG, [4]⟩ = false ∧ AsmLine.wellFormed ⟨.HEND, [0]⟩ = false ∧
    AsmLine.wellFormed ⟨.CONFIG, [255, 4294967295]⟩ = true := by decide

/-! ### The assembler and the macros -/

/-- V 6 P4, with a comment and a hexadecimal number (R69). -/
theorem test_assemble_pushw :
    assembleLine ['P', 'U', 'S', 'H', 'W', ' ', '0', 'x', '6', '5', '6', '4', '6', '3', '6', '2', ' ', ';', 'x'] =
      .ok [.pushw 0x65646362] := by rfl

/-- V 4.2 E1, two operands in the table's order. -/
theorem test_assemble_config :
    assembleLine ['C', 'O', 'N', 'F', 'I', 'G', ' ', '4', ',', ' ', '4', '2'] = .ok [.config 4 42] := by rfl

/-- R69: 256 does not fit PUSHB's field. -/
theorem test_assemble_error :
    assembleLine ['P', 'U', 'S', 'H', 'B', ' ', '2', '5', '6'] = .error .outOfRange := by rfl

/-- R70: a macro with a text in quotes. -/
theorem test_assemble_macro :
    assembleLine ['A', 'D', 'D', 'M', 'S', 'G', ' ', '\x22', 'a', 'b', '\x22'] =
      .ok [.abegin, .pushb 0x61, .pushb 0x62, .aend] := by rfl

/-- R70, R114: the PUSHW of four consecutive bytes. -/
theorem test_macro_packed :
    packedPushes [0x61, 0x62, 0x63, 0x64, 0x65] = [.pushw 0x64636261, .pushb 0x65] ∧
    Macro.expand (.getRegisters 2) = [.rdreg 0, .rdreg 1] := by decide

/-! ### The mixer (V 2, V 3) -/

/-- V 2.1 -/
theorem test_rotl32 : rotl32 0x80000001 15 = 0x0000c000 ∧ rotl32 0x80000001 13 = 0x00003000 := by decide

/-- V 2.1 -/
theorem test_mixk :
    mixk 0 = 0 ∧ mixk 1 = 0xc3539a5d ∧ mixk 0x64636261 = 0x5b9433b7 ∧ mixk 0x80000000 = 0xcd64c000 ∧
    mixk 0xffffffff = 0xbbeeb010 := by decide

/-- V 2.1 -/
theorem test_blockmix :
    blockmix 0 0 = 0xe6546b64 ∧ blockmix 0x2a 0x64636261 = 0x8696c49e ∧
    blockmix 0xffffffff 0xffffffff = 0xb849f5ee := by decide

/-- V 2.1 -/
theorem test_fmix32 :
    fmix32 1 = 0x514e28b7 ∧ fmix32 0x2a = 0x087fcd5c ∧ fmix32 0x80000000 = 0x6d3c65a0 ∧
    fmix32 0x0bab57d2 = 0xaeda2bf0 := by decide

/-- V 2.2 rows 3, 6, 7, 8, 12, 17, 18: every tail length, and bytes from 0x80 on. -/
theorem test_hash32 :
    hash32 42 [] = 0x087fcd5c ∧ hash32 42 [0x61] = 0xb2e5a263 ∧ hash32 0 [0x61, 0x62] = 0x9bbfd75f ∧
    hash32 0 [0x61, 0x62, 0x63] = 0xb3dd93fa ∧ hash32 42 [0x61, 0x62, 0x63, 0x64, 0x65] = 0xaeda2bf0 ∧
    hash32 0 [0xff, 0xff, 0xff, 0xff] = 0x76293b50 ∧ hash32 0 [0x80] = 0x0feb9e1d := by decide

/-- V 2.2 row 24, "Hello, world!": three blocks and a tail byte. -/
theorem test_hash32_long :
    hash32 1234 [0x48, 0x65, 0x6c, 0x6c, 0x6f, 0x2c, 0x20, 0x77, 0x6f, 0x72, 0x6c, 0x64, 0x21] = 0xfaf6cdb3 := by decide

/-- V 3.1 -/
theorem test_rho :
    rho 0 28 = 29 ∧ rho 1 28 = 28 ∧ rho 0x8000000 28 = 1 ∧ rho 0x2e5a263 28 = 3 ∧ rho 0 16 = 17 ∧
    rho 0x7fff 16 = 2 ∧ rho 0x3ffff 18 = 1 := by decide

/-- V 3.2 -/
theorem test_index_rank :
    (regIndex 0x80000000 4, rank 0x80000000 4) = (8, 29) ∧ (regIndex 0xb2e5a263 4, rank 0xb2e5a263 4) = (11, 3) ∧
    (regIndex 0x00040000 14, rank 0x00040000 14) = (1, 19) ∧ (regIndex 0x12340000 16, rank 0x12340000 16) = (4660, 17) ∧
    (regIndex 0xffffffff 16, rank 0xffffffff 16) = (65535, 1) := by decide

/-! ### The estimate's arithmetic (R169, V 5) -/

/-- R169: ALPHA64, every row of the table, as its 53-bit integer over 2^53. -/
theorem test_alpha64 :
    [(4, 0x1589374bc6a7f0), (5, 0x164dd2f1a9fbe7), (6, 0x16b020c49ba5e3), (7, 0x16e37ef20b947a), (8, 0x16fc16ce33d64d),
     (9, 0x170876987dc1b0), (10, 0x170eab7e0db3e2), (11, 0x1711c7321e7b57), (12, 0x1713555c9efabf), (13, 0x17141c860200c7),
     (14, 0x1714801fbccd72), (15, 0x1714b1eddc9938), (16, 0x1714cad53d1ad7)].all
      (fun p : Nat × Nat => alpha64 p.1 == mkRat p.2 (2 ^ 53)) = true := by decide +kernel

/-- R169: T30 = 0x1.1111111111111p+27. -/
theorem test_t30 : t30 = mkRat 0x11111111111111 (2 ^ 25) := by decide +kernel

/-- R168: ties go to the even neighbour: 2^53 + 1 and 2^53 + 3 lie half way between two binary64 values. -/
theorem test_round64_ties :
    round64 9007199254740993 = 9007199254740992 ∧ round64 9007199254740995 = 9007199254740996 := by decide +kernel

/-- R172 (L1), whichever value LN takes. -/
theorem test_ln_one : lnChoices.all (fun f => f 1 == 0) = true := by decide +kernel

/-- V 5 rows 4, 10, 24: the raw value. -/
theorem test_est_raw :
    est 4 0 4294967296 = some 21 ∧ est 4 1 536870927 = some 172 ∧ est 14 2341 2493933158400 = some 41678 := by
  decide +kernel

/-- V 5 rows 5 and 8: the small-range correction. -/
theorem test_est_small : est 4 5 4546625536 = some 18 ∧ est 4 1 2348810240 = some 44 := by decide +kernel

/-- V 5 row 9: just above 2.5 m the raw value stands. -/
theorem test_est_threshold : est 4 1 2281701376 = some 40 := by decide +kernel

/-- V 5 row 28: the large-range correction, above 2^32. -/
theorem test_est_large : est 16 0 536870912 = some 5487150295 := by decide +kernel

/-- V 5 rows 15 and 29: no value. -/
theorem test_est_range : est 4 0 16 = none ∧ est 16 0 268435456 = none := by decide +kernel

/-! ### One step per command -/

/-- V 4.1 H1 -/
theorem test_setseed :
    (after idle0 0x0100FFFFFFFF#48).map (fun t => (t.hseed, t.eseed, t.rspOut)) =
      some (0xffffffff#32, 42#32, [⟨.ok, 0⟩]) := by decide

/-- V 6 P3 row 20: SEQ while a message is open. -/
theorem test_setseed_seq : answers (hash0 1 1) 0x010000000005#48 = some [⟨.seq, 0⟩] := by decide

/-- R111 -/
theorem test_getseed : answers idle0 0x020000000000#48 = some [⟨.ok, 0x2A⟩] := by decide

/-- R112 -/
theorem test_hbegin :
    (after bare0 0x030000000000#48).map (fun t => (t.h1, t.mode, t.tcnt, t.len)) =
      some (0x2a#32, .hash, 0#2, 0#32) := by decide

/-- R115: the message is closed and the working registers are 0. -/
theorem test_hend_closes :
    (after (hash0 3 3) 0x040000000000#48).map (fun t => (t.mode, t.h1, t.tail0, t.tcnt, t.len)) =
      some (.idle, 0#32, 0#8, 0#2, 0#32) := by decide

/-- V 2.3: the last step of hashing "abcde" under seed 42. -/
theorem test_hend_hash :
    answers { hash0 1 5 with h1 := 0x8696c49e, tail0 := 0x65 } 0x040000000000#48 = some [⟨.ok, 0xAEDA2BF0⟩] := by decide

/-- V 4.1 H4: the fourth byte completes the block. -/
theorem test_pushb_block :
    (after (hash0 3 3) 0x086400000000#48).map (fun t => (t.h1, t.tcnt, t.len, t.rspOut)) =
      some (0x8696c49e#32, 0#2, 4#32, [⟨.ok, 0⟩]) := by decide

/-- V 4.1 H6: no room for one more byte. -/
theorem test_pushb_len : answers (hash0 3 0xffffffff) 0x080000000000#48 = some [⟨.len, 0⟩] := by decide

/-- V 4.1 H5: four bytes across two blocks. -/
theorem test_pushw_straddles :
    (after (hash0 2 2) 0x090066656463#48).map (fun t => (t.h1, t.tcnt, t.tail0, t.tail1, t.len)) =
      some (0x8696c49e#32, 2#2, 0x65#8, 0x66#8, 6#32) := by decide

/-- V 4.1 H7 and H8: the last length that fits. -/
theorem test_pushw_len :
    answers (hash0 0 0xfffffffc) 0x090000000000#48 = some [⟨.len, 0⟩] ∧
    (after (hash0 3 0xfffffffb) 0x090000000000#48).map (fun t => (t.len, t.tcnt, t.rspOut)) =
      some (0xffffffff#32, 3#2, [⟨.ok, 0⟩]) := by decide

/-- V 4.1 H9: the item is dropped, M is unchanged. -/
theorem test_mabort :
    (after (add0 0x61) 0x0A0000000000#48).map (fun t => (t.mode, t.len, t.m, t.rspOut)) =
      some (.idle, 0#32, [(11, 3)], [⟨.ok, 0⟩]) := by decide

/-- V 4.2 E4: a new construction clears M[11]. -/
theorem test_config :
    (after bare0 0x10040000002A#48).map (fun t => (t.b, t.eseed, t.cfgv, t.m)) = some (4#5, 42#32, true, []) := by decide

/-- V 4.2 E3 and E5, R133: nothing changes outside 4 to 16. -/
theorem test_config_refused :
    after idle0 0x101100000000#48 = some { idle0 with rspOut := [⟨.invalidParameter, 0⟩] } ∧
    answers idle0 0x100300000000#48 = some [⟨.invalidParameter, 0⟩] := by decide

/-- R134 -/
theorem test_abegin :
    (after { idle0 with hseed := 7 } 0x110000000000#48).map (fun t => (t.h1, t.mode, t.tcnt, t.len)) =
      some (0x2a#32, .add, 0#2, 0#32) := by decide

/-- V 4.2 E6: "a" falls on cell 11 with rank 3. -/
theorem test_aend :
    (after { add0 0x61 with m := [] } 0x120000000000#48).map (fun t => (t.m, t.mode, t.rspOut)) =
      some ([(11, 3)], .idle, [⟨.ok, 0⟩]) := by decide

/-- V 4.2 E7: "f" has rank 2 on cell 3, which holds 3. -/
theorem test_aend_keeps :
    (after { add0 0x66 with m := [(3, 3)] } 0x120000000000#48).map (fun t => t.m) = some [(3, 3)] := by decide

/-- R160: M all zero except M[11] = 3 answers 1. -/
theorem test_estimate : answers idle0 0x130000000000#48 = some [⟨.ok, 1⟩] := by decide +kernel

/-- V 5 row 15: RANGE. -/
theorem test_estimate_range : answers (full0 29) 0x130000000000#48 = some [⟨.range, 0⟩] := by decide +kernel

/-- V 4.2 E11: cells from m on are not written. -/
theorem test_clear :
    (after { idle0 with m := [(11, 3), (16, 9)] } 0x140000000000#48).map (fun t => (t.m, t.cfgv)) =
      some ([(16, 9)], true) := by decide

/-- V 4.2 E12 -/
theorem test_clear_nocfg : answers bare0 0x140000000000#48 = some [⟨.nocfg, 0⟩] := by decide

/-- V 4.2 E9 -/
theorem test_getm : answers { idle0 with b := 14 } 0x150000000000#48 = some [⟨.ok, 0x4000⟩] := by decide

/-- V 4.2 E9 -/
theorem test_getb : answers { idle0 with b := 14 } 0x160000000000#48 = some [⟨.ok, 0x0E⟩] := by decide

/-- R139 -/
theorem test_rdreg : answers idle0 0x17000000000B#48 = some [⟨.ok, 3⟩] := by decide

/-- V 4.2 E10, V 6 P3 row 3: INDEX from m on, and NOCFG before it. -/
theorem test_rdreg_index :
    answers idle0 0x170000000010#48 = some [⟨.index, 0⟩] ∧ answers idle0 0x1700FFFFFFFF#48 = some [⟨.index, 0⟩] ∧
    answers bare0 0x170000000000#48 = some [⟨.nocfg, 0⟩] := by decide

/-- V 6 P3 row 25: an illegal word inside a message is answered and disturbs nothing. -/
theorem test_illegal_word :
    after (hash0 1 1) 0x050000000000#48 = some { hash0 1 1 with rspOut := [⟨.illegal, 0⟩] } := by decide

/-- R230: reset drops an open message and the estimator, and answers nothing. -/
theorem test_reset_event :
    (stepped { add0 0x61 with cmdIn := [.reset] }).map (fun t => (t.mode, t.cfgv, t.len, t.rspOut)) =
      some (.idle, false, 0#32, []) := by decide

/-- The first word after reset runs, placed as the host places it: V 6 P3 rows 1, 4, 9. -/
theorem test_first_words :
    (stepped (State.reset.withFetchWord 48 0x130000000000)).map (fun t => t.rspOut) = some [⟨.nocfg, 0⟩] ∧
    (stepped (State.reset.withFetchWord 48 0x080100000000)).map (fun t => t.rspOut) = some [⟨.seq, 0⟩] ∧
    (stepped (State.reset.withFetchWord 48 0x101000000007)).map (fun t => (t.rspOut, t.cfgv, t.b, t.eseed)) =
      some ([⟨.ok, 0⟩], true, 16#5, 7#32) := by decide +kernel

/-! ### Witnesses: states and operands that meet a statement's hypotheses, clause by clause -/

/-- The configured block meets the invariants. -/
theorem idle0_invariants : Invariants idle0 :=
  ⟨by decide, by decide, by decide, by decide, by decide, by decide⟩

/-- So it does before any CONFIG. -/
theorem bare0_invariants : Invariants bare0 :=
  ⟨by decide, by decide, by decide, by decide, by decide, by decide⟩

/-- So it does with the item "a" open. -/
theorem add0_invariants : Invariants (add0 0x61) :=
  ⟨by decide, by decide, by decide, by decide, by decide, by decide⟩

/-- So it does with every cell at v = 1, and at the largest value v = 29. -/
theorem full0_invariants : Invariants (full0 1) ∧ Invariants (full0 29) :=
  ⟨⟨by decide, by decide, by decide, by decide, by decide, by decide⟩,
   ⟨by decide, by decide, by decide, by decide, by decide, by decide⟩⟩

/-- So it does at the largest precision. -/
theorem wide0_invariants : Invariants { idle0 with b := 16, m := [] } :=
  ⟨by decide, by decide, fun _ _ _ => Nat.zero_le _, by decide, by decide, by decide⟩

theorem witness_EncodeInvertsDecode : decode 0x100E0000002A#48 = .ok (.config 14 42) := by rfl

/-- The first and the last row select a word; the all-zero word and the word after the last opcode are selected by none. -/
theorem witness_DecodeFollowsOpcodeMap :
    (⟨.SETSEED, 0x01, .A⟩ ∈ opcodeMap ∧ OpRow.selects ⟨.SETSEED, 0x01, .A⟩ 0x0100FFFFFFFF#48 = true) ∧
    (⟨.RDREG, 0x17, .A⟩ ∈ opcodeMap ∧ OpRow.selects ⟨.RDREG, 0x17, .A⟩ 0x170000000010#48 = true) ∧
    (∀ r ∈ opcodeMap, r.selects 0#48 = false) ∧ (∀ r ∈ opcodeMap, r.selects 0x180000000000#48 = false) := by
  decide +kernel

/-- The largest byte, and one past it. -/
theorem witness_AssemblerLinesAreCommands :
    AsmLine.wellFormed ⟨.PUSHB, [255]⟩ = true ∧ AsmLine.wellFormed ⟨.PUSHB, [256]⟩ = false := by decide

theorem witness_StepRunsDecodedCommand :
    (idle0.sendFirst 0x020000000000).cmdIn = .command 0x020000000000 :: [] ∧
    decode 0x020000000000#48 = .ok .getseed := ⟨rfl, rfl⟩

theorem witness_IllegalWordDisturbsNothing :
    ((hash0 1 1).sendFirst 0x050000000000).cmdIn = .command 0x050000000000 :: [] ∧
    CmdWord.legal 0x050000000000 = false := ⟨rfl, by decide⟩

theorem witness_ResetEventGivesResetState : State.cmdIn { add0 0x61 with cmdIn := [.reset] } = .reset :: [] := rfl

theorem witness_NothingToDoHoldsState : idle0.cmdIn = [] := rfl

theorem witness_OneResponsePerCommand : exec .getseed idle0 = .next (idle0.only .ok 42) := rfl

theorem witness_ErrorChangesNothing :
    (idle0.sendFirst 0x0A0000000000).cmdIn = .command 0x0A0000000000 :: [] ∧
    step (idle0.sendFirst 0x0A0000000000) = .next (idle0.only .seq 0) ∧
    (idle0.only .seq 0).rspOut = (idle0.sendFirst 0x0A0000000000).rspOut ++ [⟨.seq, 0⟩] ∧
    Status.seq ≠ .ok := ⟨rfl, rfl, rfl, by decide⟩

theorem witness_StatusFollowsPriority :
    Invariants (idle0.sendFirst 0x130100000000) ∧ CmdWord.legal 0x130100000000 = false ∧
    Invariants (idle0.sendFirst 0x0A0000000000) ∧ CmdWord.legal 0x0A0000000000 = true :=
  ⟨⟨by decide, by decide, by decide, by decide, by decide, by decide⟩, by decide,
   ⟨by decide, by decide, by decide, by decide, by decide, by decide⟩, by decide⟩

theorem witness_AdmissionTable :
    admittedIn .hend (add0 0x61).mode = false ∧
    (admittedIn .getb bare0.mode = true ∧ needsConfig .getb = true ∧ bare0.cfgv = false) ∧
    (admittedIn .getseed idle0.mode = true ∧ (needsConfig .getseed = true → idle0.cfgv = true) ∧
      exec .getseed idle0 = .next (idle0.only .ok 42) ∧
      (idle0.only .ok 42).rspOut = idle0.rspOut ++ [⟨.ok, 42⟩]) := ⟨rfl, ⟨rfl, rfl, rfl⟩, rfl, by decide, rfl, rfl⟩

/-- For SETSEED, GETSEED and HBEGIN, and for PUSHB, PUSHW and MABORT the other way round. -/
theorem witness_phases : idle0.mode = .idle ∧ (hash0 0 0).mode ≠ .idle ∧ (add0 0x61).mode ≠ .idle := by decide

/-- The last length that has room, with and without a block to complete, and the length that has none. -/
theorem witness_PushbAbsorbsOneByte :
    ((hash0 2 0xfffffffe).mode ≠ .idle ∧ (hash0 2 0xfffffffe).len.toNat < 2 ^ 32 - 1 ∧ (hash0 2 0xfffffffe).tcnt ≠ 3) ∧
    ((hash0 3 0xfffffffb).mode ≠ .idle ∧ (hash0 3 0xfffffffb).len.toNat < 2 ^ 32 - 1 ∧ (hash0 3 0xfffffffb).tcnt = 3) ∧
    idle0.mode = .idle ∧
    ((hash0 3 0xffffffff).mode ≠ .idle ∧ (hash0 3 0xffffffff).len.toNat = 2 ^ 32 - 1) := by decide

/-- The last length that has room for four bytes at each TCNT, and the first that has not. -/
theorem witness_PushwAbsorbsFourBytes :
    ((hash0 0 0xfffffff8).mode ≠ .idle ∧ (hash0 0 0xfffffff8).len.toNat ≤ 2 ^ 32 - 1 - 4 ∧ (hash0 0 0xfffffff8).tcnt = 0) ∧
    ((hash0 1 0xfffffff9).mode ≠ .idle ∧ (hash0 1 0xfffffff9).len.toNat ≤ 2 ^ 32 - 1 - 4 ∧ (hash0 1 0xfffffff9).tcnt = 1) ∧
    ((hash0 2 0xfffffffa).mode ≠ .idle ∧ (hash0 2 0xfffffffa).len.toNat ≤ 2 ^ 32 - 1 - 4 ∧ (hash0 2 0xfffffffa).tcnt = 2) ∧
    ((hash0 3 0xfffffffb).mode ≠ .idle ∧ (hash0 3 0xfffffffb).len.toNat ≤ 2 ^ 32 - 1 - 4 ∧ (hash0 3 0xfffffffb).tcnt = 3) ∧
    idle0.mode = .idle ∧
    ((hash0 0 0xfffffffc).mode ≠ .idle ∧ 2 ^ 32 - 1 - 4 < (hash0 0 0xfffffffc).len.toNat) := by decide

theorem witness_PushwIsFourPushbs :
    (hash0 3 0xfffffffb).mode ≠ .idle ∧ (hash0 3 0xfffffffb).len.toNat ≤ 2 ^ 32 - 1 - 4 := by decide

theorem witness_FinalizeMixesTailAndLength : (hash0 0 4).tcnt = 0 ∧ (hash0 3 7).tcnt ≠ 0 := by decide

theorem witness_HendAnswersHash : (hash0 0 0).mode = .hash ∧ (add0 0x61).mode ≠ .hash ∧ idle0.mode ≠ .hash := by decide

/-- The empty message and a message of five bytes. -/
theorem witness_StreamingEqualsWholeMessage :
    ([] : List Byte).length ≤ 2 ^ 32 - 1 ∧ [0x61#8, 0x62, 0x63, 0x64, 0x65].length ≤ 2 ^ 32 - 1 ∧
    (hash0 0 0).tcnt = 0 ∧ (hash0 0 0).len = 0 := by decide

theorem witness_HashMacroAnswersHash :
    Invariants bare0 ∧ bare0.mode = .idle ∧ ([] : List Byte).length ≤ 2 ^ 32 - 1 :=
  ⟨bare0_invariants, rfl, by decide⟩

/-- The last length that has room for the two bytes. -/
theorem witness_PackedPushesHaveSameEffect :
    (hash0 1 0xfffffffd).mode ≠ .idle ∧ (hash0 1 0xfffffffd).len.toNat + [0x61#8, 0x62].length ≤ 2 ^ 32 - 1 := by decide

/-- The least and the largest precision, and their neighbours. -/
theorem witness_ConfigConstructsEstimator :
    (bare0.mode = .idle ∧ 4 ≤ (4#8).toNat ∧ (4#8).toNat ≤ 16) ∧ (4 ≤ (16#8).toNat ∧ (16#8).toNat ≤ 16) ∧
    (hash0 0 0).mode ≠ .idle ∧ ((3#8).toNat < 4 ∨ 16 < (3#8).toNat) ∧ ((17#8).toNat < 4 ∨ 16 < (17#8).toNat) := by decide

/-- For ABEGIN, GETM and GETB. -/
theorem witness_configured :
    (idle0.mode = .idle ∧ idle0.cfgv = true) ∧ (add0 0x61).mode ≠ .idle ∧ (bare0.mode = .idle ∧ bare0.cfgv = false) := by
  decide

theorem witness_AendUpdatesOneCell :
    (Invariants (add0 0x61) ∧ (add0 0x61).mode = .add) ∧ (hash0 0 0).mode ≠ .add ∧ idle0.mode ≠ .add :=
  ⟨⟨add0_invariants, rfl⟩, by decide, by decide⟩

/-- At the largest precision. -/
theorem witness_ClearZeroesRegisters :
    State.mode { idle0 with b := 16 } = .idle ∧ State.cfgv { idle0 with b := 16 } = true ∧
    (State.b { idle0 with b := 16 }).toNat ≤ 16 := by decide

/-- The last index below m and the first from m on. -/
theorem witness_RdregAnswersOneCell :
    (idle0.mode = .idle ∧ idle0.cfgv = true ∧ idle0.b.toNat ≤ 16 ∧ (15#32).toNat < 2 ^ idle0.b.toNat) ∧
    (hash0 0 0).mode ≠ .idle ∧ (bare0.mode = .idle ∧ bare0.cfgv = false) ∧
    (idle0.mode = .idle ∧ idle0.cfgv = true ∧ 2 ^ idle0.b.toNat ≤ (16#32).toNat) := by decide

/-- For the index and the rank: the least and the largest precision. -/
theorem witness_precisions :
    (4 ≤ (4#5).toNat ∧ (4#5).toNat ≤ 16) ∧ (4 ≤ (16#5).toNat ∧ (16#5).toNat ≤ 16) := by decide

/-- At the least field the value 0, at the largest the value 1, whose highest set bit is bit 0. -/
theorem witness_RhoCountsLeadingZeros :
    (16 ≤ 16 ∧ 16 ≤ 28 ∧ 0 < 2 ^ 16 ∧ (0 : Nat) = 0) ∧
    (16 ≤ 28 ∧ 28 ≤ 28 ∧ 1 < 2 ^ 28 ∧ Nat.testBit 1 0 = true ∧ ∀ q, 0 < q → Nat.testBit 1 q = false) :=
  ⟨by decide, by decide, by decide, by decide, by decide, fun q hq => by rw [Nat.testBit, Nat.shiftRight_eq_div_pow, Nat.div_eq_of_lt (Nat.one_lt_two_pow hq.ne')]; rfl⟩

theorem witness_UpdateTakesMaximum :
    Memory.wf [(11, 3)] = true ∧ 4 ≤ (4#5).toNat ∧ (4#5).toNat ≤ 16 := by decide

theorem witness_AddMacroUpdatesRegisters :
    Invariants idle0 ∧ idle0.mode = .idle ∧ idle0.cfgv = true ∧ ([] : List Byte).length ≤ 2 ^ 32 - 1 :=
  ⟨idle0_invariants, rfl, rfl, by decide⟩

theorem witness_DuplicateAddChangesNothing :
    Memory.wf [(11, 3)] = true ∧ 4 ≤ (16#5).toNat ∧ (16#5).toNat ≤ 16 ∧ [0x61#8] ∈ [[0x62#8], [0x61#8]] := by decide

theorem witness_FinalCellsAreMaxima :
    Memory.wf [(16, 9)] = true ∧ 4 ≤ (4#5).toNat ∧ (4#5).toNat ≤ 16 ∧
    (∀ k, k < 2 ^ (4#5).toNat → Memory.read [(16, 9)] k = 0) ∧ 15 < 2 ^ (4#5).toNat := by decide

theorem witness_StatisticsCountCells :
    (Invariants (full0 29) ∧ (full0 29).cfgv = true) ∧
    (Invariants idle0 ∧ Invariants { idle0 with m := [(0, 3)] } ∧ idle0.mode = .idle ∧ idle0.cfgv = true ∧
      zeroCells idle0 = zeroCells { idle0 with m := [(0, 3)] } ∧ cellSum idle0 = cellSum { idle0 with m := [(0, 3)] }) :=
  ⟨⟨full0_invariants.2, rfl⟩, idle0_invariants, ⟨by decide, by decide, by decide, by decide, by decide, by decide⟩, rfl, rfl,
   by decide +kernel, by decide +kernel⟩

/-- V 5 rows 4 and 15. -/
theorem witness_EstimateAnswersEst :
    (Invariants (full0 1) ∧ (full0 1).mode = .idle ∧ (full0 1).cfgv = true ∧
      estF64 ln (full0 1).b.toNat (zeroCells (full0 1)) (cellSum (full0 1)) = some 21) ∧
    (Invariants (full0 29) ∧ (full0 29).mode = .idle ∧ (full0 29).cfgv = true ∧
      estF64 ln (full0 29).b.toNat (zeroCells (full0 29)) (cellSum (full0 29)) = none) ∧
    (hash0 0 0).mode ≠ .idle ∧ (bare0.mode = .idle ∧ bare0.cfgv = false) :=
  ⟨⟨full0_invariants.1, rfl, rfl, by decide +kernel⟩, ⟨full0_invariants.2, rfl, rfl, by decide +kernel⟩, by decide, by decide⟩

/-- The largest raw estimate of V 5 at B = 4 below 2^32, and the one above it. -/
theorem witness_EstimateCompletesBelowRange :
    (Invariants (full0 28) ∧ (full0 28).mode = .idle ∧ (full0 28).cfgv = true ∧
      rawF64 (full0 28).b.toNat (cellSum (full0 28)) < 2 ^ 32) ∧
    (Invariants (full0 29) ∧ (full0 29).mode = .idle ∧ (full0 29).cfgv = true ∧
      2 ^ 32 ≤ rawF64 (full0 29).b.toNat (cellSum (full0 29))) :=
  ⟨⟨⟨by decide, by decide, by decide, by decide, by decide, by decide⟩, rfl, rfl, by decide +kernel⟩,
   full0_invariants.2, rfl, rfl, by decide +kernel⟩

theorem witness_EmptyEstimatorAnswersZero :
    Invariants { idle0 with b := 16, m := [] } ∧ State.mode { idle0 with b := 16, m := [] } = .idle ∧
    State.cfgv { idle0 with b := 16, m := [] } = true ∧
    ∀ j, j < 2 ^ (State.b { idle0 with b := 16, m := [] }).toNat → Memory.read (State.m { idle0 with b := 16, m := [] }) j = 0 :=
  ⟨wide0_invariants, rfl, rfl, fun _ _ => rfl⟩

/-- For LN: the two ends of what the datapath gives it, and 1. -/
theorem witness_ln_arguments :
    (1 : F64) ≤ 1 ∧ (1 : F64) ≤ 65536 ∧ (0 : F64) < mkRat 1 (2 ^ 53) ∧ mkRat 1 (2 ^ 53) < (1 : F64) := by decide +kernel

/-- Row 3 of V 5, and the largest small-range value, V = 1 at B = 16. -/
theorem witness_CorrectionsAreExclusive :
    (4 ≤ 4 ∧ 4 ≤ 16 ∧ 0 < 15 ∧ 15 ≤ 2 ^ 4 ∧ rawF64 4 8120172544 ≤ 5 / 2 * 2 ^ 4) ∧
    (4 ≤ 16 ∧ 16 ≤ 16 ∧ 0 < 1 ∧ 1 ≤ 2 ^ 16 ∧ rawF64 16 35184372088832 ≤ 5 / 2 * 2 ^ 16) := by decide +kernel

/-- Row 4 of V 5. -/
theorem witness_EstimateBelowTwoPow38 : legalStats 4 0 4294967296 ∧ estF64 ln 4 0 4294967296 = some 21 :=
  ⟨⟨by decide, by decide, by decide, by decide, by decide, by decide⟩, by decide +kernel⟩

/-- Row 4 of V 5: E0 = E1 = E2 = 21.536. -/
theorem witness_EstimateAgreesWithReals :
    legalStats 4 0 4294967296 ∧
    (∀ k : ℤ, (2 : ℝ) ^ (-12 : ℤ) < |e2Real 4 0 4294967296 - k|) ∧
    (2 : ℝ) ^ (-40 : ℤ) * e0Real 4 4294967296 < |e0Real 4 4294967296 - 5 / 2 * 2 ^ 4| ∧
    (2 : ℝ) ^ (-40 : ℤ) * e1Real 4 0 4294967296 < |e1Real 4 0 4294967296 - 2 ^ 32 / 30| ∧
    e1Real 4 0 4294967296 < 2 ^ 31 := by
  have h0 : e0Real 4 4294967296 = 2692 / 125 := by norm_num [e0Real, alphaReal]
  have h1 : e1Real 4 0 4294967296 = 2692 / 125 := by simp [e1Real, h0]
  have h2 : e2Real 4 0 4294967296 = 2692 / 125 := by norm_num [e2Real, h1]
  refine ⟨⟨by decide, by decide, by decide, by decide, by decide, by decide⟩, fun k => ?_, ?_, ?_, ?_⟩
  · rw [h2]
    rcases lt_or_ge (21 : ℤ) k with h | h
    · have hk : (22 : ℝ) ≤ k := by exact_mod_cast h
      rw [abs_of_neg (by linarith)]
      norm_num
      linarith
    · have hk : (k : ℝ) ≤ 21 := by exact_mod_cast h
      rw [abs_of_pos (by linarith)]
      norm_num
      linarith
  · rw [h0, abs_of_neg (by norm_num)]
    norm_num
  · rw [h1, abs_of_neg (by norm_num)]
    norm_num
  · rw [h1]
    norm_num

theorem witness_StepKeepsInvariants :
    Invariants { add0 0x61 with cmdIn := [.reset] } ∧
    step { add0 0x61 with cmdIn := [.reset] } = .next { State.reset with cmdIn := [], rspOut := [] } :=
  ⟨⟨by decide, by decide, by decide, by decide, by decide, by decide⟩, rfl⟩

theorem witness_EveryCommandIsAnswered :
    Invariants (idle0.sendFirst 0x130100000000) ∧
    (idle0.sendFirst 0x130100000000).cmdIn = .command 0x130100000000 :: [] ∧
    Invariants { add0 0x61 with cmdIn := [.reset] } ∧ State.cmdIn { add0 0x61 with cmdIn := [.reset] } = .reset :: [] :=
  ⟨⟨by decide, by decide, by decide, by decide, by decide, by decide⟩, rfl,
   ⟨by decide, by decide, by decide, by decide, by decide, by decide⟩, rfl⟩

/-- A CLEAR that is refused, and a command that is carried out. -/
theorem witness_RegistersNeverDecrease :
    (Invariants bare0 ∧ exec .clear bare0 = .next (bare0.only .nocfg 0) ∧
      (bare0.only .nocfg 0).rspOut = bare0.rspOut ++ [⟨.nocfg, 0⟩] ∧ Status.nocfg ≠ .ok) ∧
    (Invariants idle0 ∧ exec .getb idle0 = .next (idle0.only .ok 4) ∧
      (idle0.only .ok 4).rspOut = idle0.rspOut ++ [⟨.ok, 4⟩] ∧ Instr.getb ≠ .clear ∧ ∀ b seed, Instr.getb ≠ .config b seed) :=
  ⟨⟨bare0_invariants, rfl, rfl, by decide⟩, idle0_invariants, rfl, rfl, by decide, fun _ _ h => by cases h⟩

theorem witness_ElementsChangeOnlyByTheirWriters :
    exec (.setseed 7) idle0 = .next { idle0 with hseed := 7, rspOut := [okZero] } ∧
    ({ idle0 with hseed := 7, rspOut := [okZero] } : State).hseed ≠ idle0.hseed := ⟨rfl, by decide⟩

/-- Before a CONFIG the precision, the estimator's seed and every cell may differ, after it the cells from m on. -/
theorem witness_UnspecifiedContentsStayInvisible :
    (Invariants bare0 ∧ Invariants { bare0 with b := 31, eseed := 9, m := [(5, 255)] } ∧
      SameVisible bare0 { bare0 with b := 31, eseed := 9, m := [(5, 255)] } ∧ step bare0 = .next bare0) ∧
    (Invariants idle0 ∧ Invariants { idle0 with m := [(11, 3), (16, 9)] } ∧
      SameVisible idle0 { idle0 with m := [(11, 3), (16, 9)] } ∧ step idle0 = .next idle0) :=
  ⟨⟨bare0_invariants, ⟨by decide, by decide, by decide, by decide, by decide, by decide⟩,
    ⟨rfl, rfl, rfl, rfl, rfl, rfl, rfl, rfl, rfl, rfl, rfl, fun h => by cases h⟩, rfl⟩,
   idle0_invariants, ⟨by decide, by decide, by decide, by decide, by decide, by decide⟩,
    ⟨rfl, rfl, rfl, rfl, rfl, rfl, rfl, rfl, rfl, rfl, rfl, fun _ => ⟨rfl, rfl, by decide⟩⟩, rfl⟩

end Sys2Proof.Machine.Tests
end

section
/-! SUPPORT. The rank and the update of one cell (41_estimator_regfile.md R130 to R132), and what a restriction of the register
file by index reads. -/

namespace Sys2Proof.Machine

/-- The index lies below the register count, whatever the precision (R130). -/
theorem regIndex_lt (h : Word) (b : BitVec 5) : regIndex h b < 2 ^ b.toNat := by
  have hpow : (2 : Nat) ^ 32 = 2 ^ b.toNat * 2 ^ (32 - b.toNat) := by
    rw [← pow_add, Nat.add_sub_cancel' (by omega)]
  rw [regIndex, BitVec.toNat_ushiftRight, Nat.shiftRight_eq_div_pow]
  exact Nat.div_lt_of_lt_mul (by rw [Nat.mul_comm, ← hpow]; exact h.isLt)

/-- A register count at a legal precision fits the physical cells (R25). -/
theorem two_pow_le_physCells {n : Nat} (h : n ≤ 16) : 2 ^ n ≤ physCells :=
  Nat.pow_le_pow_right (by decide) h

theorem rho_le (w n : Nat) : rho w n ≤ n + 1 := by
  unfold rho
  split <;> omega

/-- The rank is at most `33 - B` (R131). -/
theorem rank_le (h : Word) (b : BitVec 5) : rank h b ≤ 33 - b.toNat := by
  have := rho_le (h.toNat % 2 ^ (32 - b.toNat)) (32 - b.toNat)
  unfold rank
  omega

/-- A rank fits a cell. -/
theorem toNat_ofNat_rank (h : Word) (b : BitVec 5) : (BitVec.ofNat 8 (rank h b)).toNat = rank h b := by
  have := rank_le h b
  rw [BitVec.toNat_ofNat, Nat.mod_eq_of_lt (by omega)]

/-- The update makes the cell of the index the maximum of its old value and the rank, and leaves every other cell (R132). -/
theorem read_updateCells {m : List Host.Cell} (hm : Memory.wf m = true) (h : Word) (b : BitVec 5) (j : Nat) :
    (Memory.read (updateCells m h b) j).toNat =
      if j = regIndex h b then max (Memory.read m j).toNat (rank h b) else (Memory.read m j).toNat := by
  unfold updateCells
  split
  · next hlt =>
    rw [Memory.read_write hm]
    split
    · next hj => rw [toNat_ofNat_rank, hj, max_eq_right hlt.le]
    · rfl
  · next hge =>
    split
    · next hj => rw [hj, max_eq_left (not_lt.mp hge)]
    · rfl

theorem wf_updateCells {m : List Host.Cell} (hm : Memory.wf m = true) {h : Word} {b : BitVec 5}
    (hi : regIndex h b < physCells) : Memory.wf (updateCells m h b) = true := by
  unfold updateCells
  split
  · exact Memory.wf_write hm hi _
  · exact hm

/-- A part of a canonical file is canonical. -/
theorem Memory.wf_filter {m : List Host.Cell} (hm : Memory.wf m = true) (p : Host.Cell → Bool) :
    Memory.wf (m.filter p) = true := by
  induction m with
  | nil => rfl
  | cons c rest ih =>
    obtain ⟨hc, hc0, habove, hrest⟩ := Memory.wf_cons.mp hm
    rw [List.filter_cons]
    split
    · exact Memory.wf_cons.mpr ⟨hc, hc0, fun d hd => habove d (List.mem_of_mem_filter hd), ih hrest⟩
    · exact ih hrest

/-- Keeping the cells below `n`: they read as before, the others as 0. -/
theorem Memory.read_filter_lt (m : List Host.Cell) (n j : Nat) :
    Memory.read (m.filter fun c => c.1 < n) j = if j < n then Memory.read m j else 0 := by
  induction m with
  | nil => simp
  | cons c rest ih =>
    by_cases hc : c.1 < n <;> by_cases hcj : c.1 = j
    · simp [Memory.read, hcj, hcj ▸ hc]
    · simp [Memory.read, hc, hcj, ih]
    · simp [hcj, hcj ▸ hc, ih]
    · simp [Memory.read, hc, hcj, ih]

end Sys2Proof.Machine
end

section
/-! SUPPORT. What a command answers, written once for all commands: refused by its phase, refused before a CONFIG, or, in a state
that meets the invariants, refused by its own check or carried out. And the three things a step can be. -/

namespace Sys2Proof.Machine

/-- The data of a command that is carried out (R61, R63). -/
def resultOf : Instr → State → Data
  | .getseed, s => dataOfWord s.hseed
  | .hend, s => dataOfWord s.finalize
  | .estimate, s => (est s.b.toNat s.zeroCount s.scaledSum).getD 0
  | .getm, s => BitVec.ofNat 64 s.regCount
  | .getb, s => s.b.setWidth 64
  | .rdreg i, s => dataOfByte (Memory.read s.m i.toNat)
  | .setseed _, _ | .hbegin, _ | .pushb _, _ | .pushw _, _ | .mabort, _ | .config _ _, _ | .abegin, _ | .aend, _
  | .clear, _ => 0

/-- The state an admitted command leaves: by the status of its own check, or by its effect and its result. -/
def admittedOutcome (i : Instr) (s : State) : State :=
  match ownCheck i s with
  | some st => s.answer ⟨st, 0⟩
  | none => (effectOf i s).answer ⟨.ok, resultOf i s⟩

theorem admittedOutcome_of_some {i : Instr} {s : State} {st : Status} (h : ownCheck i s = some st) :
    admittedOutcome i s = s.answer ⟨st, 0⟩ := by
  simp [admittedOutcome, h]

theorem admittedOutcome_of_none {i : Instr} {s : State} (h : ownCheck i s = none) :
    admittedOutcome i s = (effectOf i s).answer ⟨.ok, resultOf i s⟩ := by
  simp [admittedOutcome, h]

namespace Invariants

variable {s : State}

/-- A configured block's registers are physical cells (I-1). -/
theorem regCount_le (h : Invariants s) (hc : s.cfgv = true) : s.regCount ≤ physCells :=
  two_pow_le_physCells (h.precision hc).2

/-- AEND reaches a physical cell. -/
theorem regIndex_lt_physCells (h : Invariants s) (hc : s.cfgv = true) (w : Word) : regIndex w s.b < physCells :=
  (regIndex_lt w s.b).trans_le (h.regCount_le hc)

/-- No cell below m holds more than 29 (I-1, I-2), so that ESTIMATE has its sum. -/
theorem not_overfull (h : Invariants s) (hc : s.cfgv = true) : s.overfull = false := by
  have hb := h.precision hc
  rw [State.overfull, List.any_eq_false]
  intro c hcell
  obtain ⟨hmem, hlt⟩ := List.mem_filter.mp hcell
  have hrank := h.ranks hc c.1 (of_decide_eq_true hlt)
  rw [Memory.read_of_mem h.cells hmem] at hrank
  simp only [decide_eq_true_eq]
  omega

end Invariants

/-- A command out of its phase answers SEQ (R71, R206). -/
theorem exec_of_not_admitted {i : Instr} {s : State} (h : admittedIn i s.mode = false) :
    exec i s = .next (s.answer ⟨.seq, 0⟩) := by
  cases i <;> simp only [admittedIn, beq_eq_false_iff_ne, bne_eq_false_iff_eq] at h
  case pushb | pushw | mabort => exact whenOpen_neg h
  case hend | aend => exact whenPhase_neg h
  case setseed | getseed | hbegin | config => exact whenIdle_neg h
  all_goals exact whenConfigured_busy h

/-- An estimator command in its phase before a CONFIG answers NOCFG (R207). -/
theorem exec_of_not_configured {i : Instr} {s : State} (h : admittedIn i s.mode = true)
    (hn : needsConfig i = true) (hc : s.cfgv = false) : exec i s = .next (s.answer ⟨.nocfg, 0⟩) := by
  cases i <;> simp only [needsConfig, Bool.false_eq_true] at hn <;>
    exact whenConfigured_unset (eq_of_beq h) hc

/-- An admitted command is answered, with its own check's status or with its result. -/
theorem exec_of_admitted {i : Instr} {s : State} (hi : Invariants s) (h : admittedIn i s.mode = true)
    (hc : needsConfig i = true → s.cfgv = true) : exec i s = .next (admittedOutcome i s) := by
  cases i with
  | setseed seed => exact whenIdle_pos (eq_of_beq h)
  | getseed => exact whenIdle_pos (eq_of_beq h)
  | hbegin => exact whenIdle_pos (eq_of_beq h)
  | hend => exact whenPhase_pos (eq_of_beq h)
  | mabort => exact whenOpen_pos (bne_iff_ne.mp h)
  | abegin => exact whenConfigured_pos (eq_of_beq h) (hc rfl)
  | getm => exact whenConfigured_pos (eq_of_beq h) (hc rfl)
  | getb => exact whenConfigured_pos (eq_of_beq h) (hc rfl)
  | pushb byte =>
    refine (whenOpen_pos (bne_iff_ne.mp h)).trans ?_
    by_cases hl : s.len.toNat = 2 ^ 32 - 1
    · rw [whenRoom_neg (by unfold maxLen; omega), admittedOutcome_of_some (i := .pushb byte) (if_pos hl)]
    · have := s.len.isLt
      rw [whenRoom_pos (by unfold maxLen; omega), admittedOutcome_of_none (i := .pushb byte) (if_neg hl)]
      rfl
  | pushw w =>
    refine (whenOpen_pos (bne_iff_ne.mp h)).trans ?_
    by_cases hl : 2 ^ 32 - 5 < s.len.toNat
    · rw [whenRoom_neg (by unfold maxLen; omega), admittedOutcome_of_some (i := .pushw w) (if_pos hl)]
    · rw [whenRoom_pos (by unfold maxLen; omega), admittedOutcome_of_none (i := .pushw w) (if_neg hl)]
      rfl
  | config b seed =>
    refine (whenIdle_pos (eq_of_beq h)).trans ?_
    by_cases hb : b.toNat < 4 ∨ 16 < b.toNat
    · rw [whenPrecision_neg hb, admittedOutcome_of_some (i := .config b seed) (if_pos hb)]
    · rw [whenPrecision_pos (by omega) (by omega), admittedOutcome_of_none (i := .config b seed) (if_neg hb)]
      rfl
  | aend =>
    have hm : s.mode = .add := eq_of_beq h
    exact (whenPhase_pos hm).trans (withCells_pos (hi.regIndex_lt_physCells (hi.adding hm) _))
  | clear =>
    exact (whenConfigured_pos (eq_of_beq h) (hc rfl)).trans (withCells_pos (hi.regCount_le (hc rfl)))
  | rdreg index =>
    refine (whenConfigured_pos (eq_of_beq h) (hc rfl)).trans ?_
    by_cases hj : s.regCount ≤ index.toNat
    · rw [whenIndex_neg hj, admittedOutcome_of_some (i := .rdreg index) (if_pos hj)]
    · have := hi.regCount_le (hc rfl)
      rw [whenIndex_pos (by omega), withCells_pos (by omega), admittedOutcome_of_none (i := .rdreg index) (if_neg hj)]
      rfl
  | estimate =>
    refine (whenConfigured_pos (eq_of_beq h) (hc rfl)).trans ((withCells_pos (hi.regCount_le (hc rfl))).trans ?_)
    simp only [hi.not_overfull (hc rfl)]
    cases he : est s.b.toNat s.zeroCount s.scaledSum <;> simp [admittedOutcome, ownCheck, resultOf, effectOf, he]

/-- In a state that meets the invariants every command is answered (R216). -/
theorem exec_answers {s : State} (hi : Invariants s) (i : Instr) : ∃ t, exec i s = .next t := by
  cases ha : admittedIn i s.mode
  · exact ⟨_, exec_of_not_admitted ha⟩
  · by_cases hc : needsConfig i = true → s.cfgv = true
    · exact ⟨_, exec_of_admitted hi ha hc⟩
    · obtain ⟨hn, hc⟩ := Classical.not_imp.mp hc
      exact ⟨_, exec_of_not_configured ha hn (Bool.eq_false_of_not_eq_true hc)⟩

theorem step_of_empty {s : State} (h : s.cmdIn = []) : step s = .next s := by
  simp [step, h]

theorem step_of_command {s : State} {w : CmdWord} {rest : List HostEvent} (h : s.cmdIn = .command w :: rest) :
    step s = runWord w { s with cmdIn := rest } := by
  simp [step, h]

theorem step_of_reset {s : State} {rest : List HostEvent} (h : s.cmdIn = .reset :: rest) :
    step s = .next (State.resetEvent { s with cmdIn := rest }) := by
  simp [step, h]

theorem runWord_of_ok {w : CmdWord} {i : Instr} (h : decode w = .ok i) (s : State) : runWord w s = exec i s := by
  simp [runWord, h]

theorem runWord_of_error {w : CmdWord} {e : Illegal} (h : decode w = .error e) (s : State) :
    runWord w s = .next (s.answer ⟨.illegal, 0⟩) := by
  simp [runWord, h]

end Sys2Proof.Machine
end

section
/-! SUPPORT. The invariants of 10_state.md R31: they hold at reset, each named update of the state keeps them, so every step keeps
them and every run from reset meets them. -/

namespace Sys2Proof.Machine

/-- Settles O9: the values of R36, read off the reset state. -/
theorem resetValues : Obligations.ResetValues :=
  ⟨rfl, rfl, rfl, rfl, rfl, rfl, rfl, rfl, rfl⟩

namespace Invariants

variable {s : State}

/-- The invariants say nothing of HSEED and the two channels. -/
theorem frame (h : Invariants s) (seed : Word) (events : List HostEvent) (responses : List Response) :
    Invariants { s with hseed := seed, cmdIn := events, rspOut := responses } :=
  ⟨h.cells, h.precision, h.ranks, h.adding, h.tailCount, h.idle⟩

theorem answer (h : Invariants s) (r : Response) : Invariants (s.answer r) := h.frame _ _ _

/-- The reset event meets them in every state: no message is open and no estimator is configured (R230, R231). -/
theorem resetEvent (s : State) : Invariants s.resetEvent where
  cells := rfl
  precision h := by cases h
  ranks h := by cases h
  adding h := by cases h
  tailCount h := absurd rfl h
  idle _ := ⟨rfl, rfl, rfl, rfl, rfl, rfl⟩

theorem openMessage (h : Invariants s) (seed : Word) {phase : Mode} (hp : phase ≠ .idle)
    (hadd : phase = .add → s.cfgv = true) : Invariants (s.openMessage seed phase) where
  cells := h.cells
  precision := h.precision
  ranks := h.ranks
  adding := hadd
  tailCount _ := rfl
  idle hm := absurd hm hp

theorem closeMessage (h : Invariants s) : Invariants s.closeMessage where
  cells := h.cells
  precision := h.precision
  ranks := h.ranks
  adding hm := by cases hm
  tailCount hm := absurd rfl hm
  idle _ := ⟨rfl, rfl, rfl, rfl, rfl, rfl⟩

/-- A byte keeps I-4: TCNT counts modulo 4, and so does LEN because 4 divides 2^32. -/
theorem absorb (h : Invariants s) (hm : s.mode ≠ .idle) (byte : Byte) : Invariants (s.absorb byte) where
  cells := by simpa using h.cells
  precision := by simpa using h.precision
  ranks := by simpa [State.regCount] using h.ranks
  adding := by simpa using h.adding
  tailCount _ := by
    have := h.tailCount hm
    simp only [State.absorb_tcnt, State.absorb_len, BitVec.toNat_add, BitVec.ofNat_eq_ofNat, BitVec.toNat_ofNat]
    omega
  idle hi := absurd (s.absorb_mode byte ▸ hi) hm

theorem absorbAll (h : Invariants s) (hm : s.mode ≠ .idle) (bytes : List Byte) :
    Invariants (bytes.foldl State.absorb s) :=
  (List.foldlRecOn (motive := fun t => Invariants t ∧ t.mode ≠ .idle) bytes State.absorb ⟨h, hm⟩
    fun t ⟨ht, hne⟩ byte _ => ⟨ht.absorb hne byte, (t.absorb_mode byte).symm ▸ hne⟩).1

/-- New cells in canonical form with ranks in their range keep the invariants. -/
theorem setCells (h : Invariants s) {m : List Host.Cell} (hwf : Memory.wf m = true)
    (hranks : s.cfgv = true → ∀ j, j < s.regCount → (Memory.read m j).toNat ≤ 33 - s.b.toNat) :
    Invariants { s with m := m } :=
  ⟨hwf, h.precision, hranks, h.adding, h.tailCount, h.idle⟩

/-- The update of one cell by a rank (R132). -/
theorem update (h : Invariants s) (hc : s.cfgv = true) (w : Word) :
    Invariants { s with m := updateCells s.m w s.b } := by
  refine h.setCells (wf_updateCells h.cells (h.regIndex_lt_physCells hc w)) fun _ j hj => ?_
  have hold := h.ranks hc j hj
  rw [read_updateCells h.cells]
  split
  · exact max_le hold (rank_le w s.b)
  · exact hold

/-- CLEAR leaves zeros below m (R136). -/
theorem clear (h : Invariants s) : Invariants { s with m := Memory.zeroBelow s.m s.regCount } := by
  refine h.setCells (Memory.wf_zeroBelow h.cells _) fun _ j hj => ?_
  rw [Memory.read_zeroBelow, if_pos hj]
  exact Nat.zero_le _

end Invariants

/-- A legal precision keeps its value in the five bits of B. -/
theorem toNat_setWidth_five {b : Byte} (h : b.toNat ≤ 16) : (b.setWidth 5).toNat = b.toNat := by
  rw [BitVec.toNat_setWidth, Nat.mod_eq_of_lt (by omega)]

/-- The register count of a new estimator (R30, R133). -/
theorem regCount_construct (s : State) {b : Byte} (h : b.toNat ≤ 16) (seed : Word) :
    (s.construct b seed).regCount = 2 ^ b.toNat := by
  rw [State.regCount, State.construct_b, toNat_setWidth_five h]

/-- A new estimator reads 0 below its register count. -/
theorem read_construct (s : State) {b : Byte} (h : b.toNat ≤ 16) (seed : Word) {j : Nat}
    (hj : j < (s.construct b seed).regCount) : Memory.read (s.construct b seed).m j = 0 := by
  rw [regCount_construct s h] at hj
  rw [State.construct_m, Memory.read_zeroBelow, if_pos hj]

/-- A successful CONFIG keeps the invariants whatever B and M held before (R133). -/
theorem Invariants.construct {s : State} (h : Invariants s) {b : Byte} (h4 : 4 ≤ b.toNat) (h16 : b.toNat ≤ 16)
    (seed : Word) : Invariants (s.construct b seed) where
  cells := Memory.wf_zeroBelow h.cells _
  precision _ := by
    rw [State.construct_b, toNat_setWidth_five h16]
    exact ⟨h4, h16⟩
  ranks _ j hj := by
    rw [read_construct s h16 seed hj]
    exact Nat.zero_le _
  adding _ := rfl
  tailCount := h.tailCount
  idle := h.idle

/-- The effect of an admitted command keeps the invariants. -/
theorem Invariants.effect {s : State} (h : Invariants s) {i : Instr} (ha : admittedIn i s.mode = true)
    (hc : needsConfig i = true → s.cfgv = true) (hp : operandsPass i s) : Invariants (effectOf i s) := by
  cases i with
  | setseed seed => exact h.frame seed _ _
  | hbegin => exact h.openMessage _ (by decide) (by simp)
  | abegin => exact h.openMessage _ (by decide) fun _ => hc rfl
  | pushb byte => exact h.absorb (bne_iff_ne.mp ha) byte
  | pushw w => exact h.absorbAll (bne_iff_ne.mp ha) _
  | hend | mabort => exact h.closeMessage
  | aend => exact (h.update (h.adding (eq_of_beq ha)) _).closeMessage
  | config b seed => exact h.construct hp.1 hp.2 seed
  | clear => exact h.clear
  | getseed | estimate | getm | getb | rdreg => exact h

theorem exec_keeps_invariants {i : Instr} {s t : State} (h : Invariants s) (he : exec i s = .next t) :
    Invariants t := by
  rcases exec_next he with ⟨st, -, rfl⟩ | ⟨ha, hc, hp, d, rfl⟩
  · exact h.answer _
  · exact (h.effect ha hc hp).answer _

/-- In a state that meets the invariants a step does not stop (R216), and the next state meets them. -/
theorem step_answers {s : State} (h : Invariants s) : ∃ t, step s = .next t ∧ Invariants t := by
  match hin : s.cmdIn with
  | [] => exact ⟨s, step_of_empty hin, h⟩
  | .reset :: rest => exact ⟨_, step_of_reset hin, .resetEvent _⟩
  | .command w :: rest =>
    have h' := h.frame s.hseed rest s.rspOut
    rw [step_of_command hin]
    cases hd : decode w with
    | error e => exact ⟨_, runWord_of_error hd _, h'.answer _⟩
    | ok i =>
      obtain ⟨t, ht⟩ := exec_answers h' i
      exact ⟨t, (runWord_of_ok hd _).trans ht, exec_keeps_invariants h' ht⟩

/-- Settles O50: the reset state is what the reset event makes of itself. -/
theorem invariantsHoldAtReset : Obligations.InvariantsHoldAtReset :=
  Invariants.resetEvent State.reset

/-- Settles O51: the next state is the one `step_answers` speaks of. -/
theorem stepKeepsInvariants : Obligations.StepKeepsInvariants := by
  intro s t h hs
  obtain ⟨t', hs', ht'⟩ := step_answers h
  cases hs.symm.trans hs'
  exact ht'

/-- A run from a state that meets the invariants does not stop, and ends in one. -/
theorem stepsTo_answers (n : Nat) {s : State} (h : Invariants s) : ∃ t, stepsTo n s = some t ∧ Invariants t := by
  induction n generalizing s with
  | zero => exact ⟨s, rfl, h⟩
  | succ n ih =>
    obtain ⟨s', hs, h'⟩ := step_answers h
    simpa only [stepsTo, hs] using ih h'

/-- Settles O53: from reset, whatever the host sends. -/
theorem reachableStatesMeetInvariants : Obligations.ReachableStatesMeetInvariants :=
  fun n events => stepsTo_answers n (invariantsHoldAtReset.frame _ events _)

/-! ### Registers -/

theorem foldl_absorb_rspOut (bytes : List Byte) (s : State) : (bytes.foldl State.absorb s).rspOut = s.rspOut := by
  induction bytes generalizing s with
  | nil => rfl
  | cons byte bytes ih => rw [List.foldl_cons, ih, State.absorb_rspOut]

theorem foldl_absorb_m (bytes : List Byte) (s : State) : (bytes.foldl State.absorb s).m = s.m := by
  induction bytes generalizing s with
  | nil => rfl
  | cons byte bytes ih => rw [List.foldl_cons, ih, State.absorb_m]

/-- A command's effect leaves the response channel to its answer. -/
theorem effectOf_rspOut (i : Instr) (s : State) : (effectOf i s).rspOut = s.rspOut := by
  cases i with
  | pushb byte => exact s.absorb_rspOut byte
  | pushw w => exact foldl_absorb_rspOut _ s
  | _ => rfl

/-- Commands other than CLEAR and CONFIG only ever raise a cell: AEND takes a maximum, the others leave M. -/
theorem read_le_read_effectOf {i : Instr} {s : State} (h : Memory.wf s.m = true) (hclear : i ≠ .clear)
    (hconfig : ∀ b seed, i ≠ .config b seed) (j : Nat) :
    (Memory.read s.m j).toNat ≤ (Memory.read (effectOf i s).m j).toNat := by
  cases i with
  | clear => exact absurd rfl hclear
  | config b seed => exact absurd rfl (hconfig b seed)
  | aend =>
    rw [effectOf, State.closeMessage_m, read_updateCells h]
    split
    · exact le_max_left _ _
    · exact le_rfl
  | pushb byte => rw [effectOf, State.absorb_m]
  | pushw w => rw [effectOf, foldl_absorb_m]
  | _ => exact le_rfl

/-- Settles O54: a refused command leaves M, and a command that is carried out answers OK. -/
theorem registersNeverDecrease : Obligations.RegistersNeverDecrease := by
  intro i s t r j h he hr hno
  rcases exec_next he with ⟨st, -, rfl⟩ | ⟨-, -, -, d, rfl⟩
  · exact le_rfl
  · have hok : r.status = .ok := by
      rw [State.answer_rspOut, effectOf_rspOut] at hr
      rw [← List.singleton_inj.mp (List.append_cancel_left hr)]
    exact read_le_read_effectOf h.cells (fun hi => hno ⟨hok, .inl hi⟩)
      (fun b seed hi => hno ⟨hok, .inr ⟨b, seed, hi⟩⟩) j

end Sys2Proof.Machine
end

section
/-! SUPPORT. States that differ at most in what no response may depend on (93_implementation_defined.md U3, U4): the named updates
of the state take such a pair to such a pair, and a command answers both alike. -/

namespace Sys2Proof.Machine

namespace SameVisible

variable {s s' : State}

/-- The same event taken from both channels. -/
theorem setCmdIn (h : SameVisible s s') (events : List HostEvent) :
    SameVisible { s with cmdIn := events } { s' with cmdIn := events } :=
  { h with cmdIn := rfl }

theorem setHseed (h : SameVisible s s') (seed : Word) :
    SameVisible { s with hseed := seed } { s' with hseed := seed } :=
  { h with hseed := rfl }

theorem answer (h : SameVisible s s') (r : Response) : SameVisible (s.answer r) (s'.answer r) :=
  { h with rspOut := congrArg (· ++ [r]) h.rspOut }

theorem openMessage (h : SameVisible s s') (seed : Word) (phase : Mode) :
    SameVisible (s.openMessage seed phase) (s'.openMessage seed phase) :=
  { h with mode := rfl, h1 := rfl, tcnt := rfl, len := rfl }

theorem closeMessage (h : SameVisible s s') : SameVisible s.closeMessage s'.closeMessage :=
  { h with mode := rfl, h1 := rfl, tail0 := rfl, tail1 := rfl, tail2 := rfl, tcnt := rfl, len := rfl }

theorem absorb (h : SameVisible s s') (byte : Byte) : SameVisible (s.absorb byte) (s'.absorb byte) := by
  constructor <;>
    simp only [State.absorb_hseed, State.absorb_eseed, State.absorb_b, State.absorb_cfgv, State.absorb_m,
      State.absorb_mode, State.absorb_h1, State.absorb_tail0, State.absorb_tail1, State.absorb_tail2,
      State.absorb_tcnt, State.absorb_len, State.absorb_cmdIn, State.absorb_rspOut, State.regCount]
  case estimator => exact h.estimator
  all_goals simp only [h.hseed, h.cfgv, h.mode, h.h1, h.tail0, h.tail1, h.tail2, h.tcnt, h.len, h.cmdIn, h.rspOut]

theorem absorbAll (h : SameVisible s s') (bytes : List Byte) :
    SameVisible (bytes.foldl State.absorb s) (bytes.foldl State.absorb s') :=
  List.foldl_rel h fun byte _ _ _ hst => hst.absorb byte

/-- After a reset event nothing but the channels is left of either state (R230). -/
theorem resetEvent (h : SameVisible s s') : SameVisible s.resetEvent s'.resetEvent where
  hseed := rfl
  cfgv := rfl
  mode := rfl
  h1 := rfl
  tail0 := rfl
  tail1 := rfl
  tail2 := rfl
  tcnt := rfl
  len := rfl
  cmdIn := h.cmdIn
  rspOut := h.rspOut
  estimator _ := ⟨rfl, rfl, fun _ _ => rfl⟩

/-- CONFIG writes everything that may have differed (R133). -/
theorem construct (h : SameVisible s s') {b : Byte} (h16 : b.toNat ≤ 16) (seed : Word) :
    SameVisible (s.construct b seed) (s'.construct b seed) :=
  { h with
    cfgv := rfl
    estimator := fun _ => ⟨rfl, rfl, fun _ hj =>
      (read_construct s h16 seed hj).trans (read_construct s' h16 seed hj).symm⟩ }

/-- New cells that read alike below m. -/
theorem setCells (h : SameVisible s s') {m m' : List Host.Cell}
    (hm : s.cfgv = true → ∀ j, j < s.regCount → Memory.read m j = Memory.read m' j) :
    SameVisible { s with m := m } { s' with m := m' } :=
  { h with estimator := fun hc => ⟨(h.estimator hc).1, (h.estimator hc).2.1, hm hc⟩ }

/-- The hash of the open message is made of visible registers (R106). -/
theorem finalize_eq (h : SameVisible s s') : s.finalize = s'.finalize := by
  simp only [State.finalize, State.tailBytes, h.h1, h.tail0, h.tail1, h.tail2, h.tcnt, h.len]

theorem b_eq (h : SameVisible s s') (hc : s.cfgv = true) : s.b = s'.b := (h.estimator hc).1

theorem eseed_eq (h : SameVisible s s') (hc : s.cfgv = true) : s.eseed = s'.eseed := (h.estimator hc).2.1

theorem read_eq (h : SameVisible s s') (hc : s.cfgv = true) {j : Nat} (hj : j < s.regCount) :
    Memory.read s.m j = Memory.read s'.m j :=
  (h.estimator hc).2.2 j hj

theorem regCount_eq (h : SameVisible s s') (hc : s.cfgv = true) : s.regCount = s'.regCount := by
  rw [State.regCount, State.regCount, h.b_eq hc]

/-- Files in canonical form that read alike below m list the same cells below m. -/
theorem liveCells_eq (h : SameVisible s s') (hs : Invariants s) (hs' : Invariants s') (hc : s.cfgv = true) :
    s.liveCells = s'.liveCells := by
  refine Memory.ext (Memory.wf_filter hs.cells _) (Memory.wf_filter hs'.cells _) fun j => ?_
  rw [State.liveCells, State.liveCells, Memory.read_filter_lt, Memory.read_filter_lt, ← h.regCount_eq hc]
  split
  · next hj => exact h.read_eq hc hj
  · rfl

theorem zeroCount_eq (h : SameVisible s s') (hs : Invariants s) (hs' : Invariants s') (hc : s.cfgv = true) :
    s.zeroCount = s'.zeroCount := by
  rw [State.zeroCount, State.zeroCount, h.regCount_eq hc, h.liveCells_eq hs hs' hc]

theorem scaledSum_eq (h : SameVisible s s') (hs : Invariants s) (hs' : Invariants s') (hc : s.cfgv = true) :
    s.scaledSum = s'.scaledSum := by
  rw [State.scaledSum, State.scaledSum, h.zeroCount_eq hs hs' hc, h.liveCells_eq hs hs' hc]

/-- An update by one hash keeps the cells below m alike. -/
theorem update (h : SameVisible s s') (hs : Invariants s) (hs' : Invariants s') (hc : s.cfgv = true) (w : Word) :
    SameVisible { s with m := updateCells s.m w s.b } { s' with m := updateCells s'.m w s'.b } := by
  refine h.setCells fun _ j hj => BitVec.eq_of_toNat_eq ?_
  rw [read_updateCells hs.cells, read_updateCells hs'.cells, ← h.b_eq hc, h.read_eq hc hj]

/-- CLEAR leaves zeros below m in both. -/
theorem clear (h : SameVisible s s') (hc : s.cfgv = true) :
    SameVisible { s with m := Memory.zeroBelow s.m s.regCount } { s' with m := Memory.zeroBelow s'.m s'.regCount } := by
  refine h.setCells fun _ j hj => ?_
  rw [Memory.read_zeroBelow, Memory.read_zeroBelow, ← h.regCount_eq hc, if_pos hj, if_pos hj]

/-- A command's own check reads visible elements, and the estimator's once it is configured. -/
theorem ownCheck_eq (h : SameVisible s s') (hs : Invariants s) (hs' : Invariants s') {i : Instr}
    (hc : needsConfig i = true → s.cfgv = true) : ownCheck i s = ownCheck i s' := by
  cases i with
  | pushb | pushw => simp only [ownCheck, h.len]
  | rdreg index => simp only [ownCheck, h.b_eq (hc rfl)]
  | estimate =>
    simp only [ownCheck, h.b_eq (hc rfl), h.zeroCount_eq hs hs' (hc rfl), h.scaledSum_eq hs hs' (hc rfl)]
  | _ => rfl

/-- So does a command's result, once its own check has passed. -/
theorem resultOf_eq (h : SameVisible s s') (hs : Invariants s) (hs' : Invariants s') {i : Instr}
    (hc : needsConfig i = true → s.cfgv = true) (hown : ownCheck i s = none) : resultOf i s = resultOf i s' := by
  cases i with
  | getseed => simp only [resultOf, h.hseed]
  | hend => simp only [resultOf, h.finalize_eq]
  | estimate =>
    simp only [resultOf, h.b_eq (hc rfl), h.zeroCount_eq hs hs' (hc rfl), h.scaledSum_eq hs hs' (hc rfl)]
  | getm => simp only [resultOf, h.regCount_eq (hc rfl)]
  | getb => simp only [resultOf, h.b_eq (hc rfl)]
  | rdreg index =>
    have hj : index.toNat < s.regCount := by simpa [ownCheck, State.regCount] using hown
    simp only [resultOf, h.read_eq (hc rfl) hj]
  | _ => rfl

/-- The effect of an admitted command whose own check has passed. -/
theorem effect (h : SameVisible s s') (hs : Invariants s) (hs' : Invariants s') {i : Instr}
    (ha : admittedIn i s.mode = true) (hc : needsConfig i = true → s.cfgv = true) (hown : ownCheck i s = none) :
    SameVisible (effectOf i s) (effectOf i s') := by
  cases i with
  | setseed seed => exact h.setHseed seed
  | hbegin =>
    simp only [effectOf, ← h.hseed]
    exact h.openMessage _ _
  | abegin =>
    simp only [effectOf, ← h.eseed_eq (hc rfl)]
    exact h.openMessage _ _
  | pushb byte => exact h.absorb byte
  | pushw w => exact h.absorbAll _
  | hend | mabort => exact h.closeMessage
  | aend =>
    simp only [effectOf, ← h.finalize_eq]
    exact (h.update hs hs' (hs.adding (eq_of_beq ha)) _).closeMessage
  | config b seed =>
    have hb : 4 ≤ b.toNat ∧ b.toNat ≤ 16 := by simpa [ownCheck] using hown
    exact h.construct hb.2 seed
  | clear => exact h.clear (hc rfl)
  | getseed | estimate | getm | getb | rdreg => exact h

theorem outcome (h : SameVisible s s') (hs : Invariants s) (hs' : Invariants s') {i : Instr}
    (ha : admittedIn i s.mode = true) (hc : needsConfig i = true → s.cfgv = true) :
    SameVisible (admittedOutcome i s) (admittedOutcome i s') := by
  cases hown : ownCheck i s with
  | some st =>
    rw [admittedOutcome_of_some hown, admittedOutcome_of_some (h.ownCheck_eq hs hs' hc ▸ hown)]
    exact h.answer _
  | none =>
    rw [admittedOutcome_of_none hown, admittedOutcome_of_none (h.ownCheck_eq hs hs' hc ▸ hown),
      h.resultOf_eq hs hs' hc hown]
    exact (h.effect hs hs' ha hc hown).answer _

/-- A command answers both states alike: refused by its phase, refused before a CONFIG, or admitted in both. -/
theorem exec_answers_alike (h : SameVisible s s') (hs : Invariants s) (hs' : Invariants s') (i : Instr) :
    ∃ t t', exec i s = .next t ∧ exec i s' = .next t' ∧ SameVisible t t' := by
  cases ha : admittedIn i s.mode
  · exact ⟨_, _, exec_of_not_admitted ha, exec_of_not_admitted (h.mode ▸ ha), h.answer _⟩
  · by_cases hc : needsConfig i = true → s.cfgv = true
    · exact ⟨_, _, exec_of_admitted hs ha hc, exec_of_admitted hs' (h.mode ▸ ha) (h.cfgv ▸ hc),
        h.outcome hs hs' ha hc⟩
    · obtain ⟨hn, hc⟩ := Classical.not_imp.mp hc
      have hc := Bool.eq_false_of_not_eq_true hc
      exact ⟨_, _, exec_of_not_configured ha hn hc, exec_of_not_configured (h.mode ▸ ha) hn (h.cfgv ▸ hc), h.answer _⟩

/-- One step of both states. -/
theorem step_answers_alike (h : SameVisible s s') (hs : Invariants s) (hs' : Invariants s') :
    ∃ t t', step s = .next t ∧ step s' = .next t' ∧ SameVisible t t' := by
  match hin : s.cmdIn with
  | [] => exact ⟨s, s', step_of_empty hin, step_of_empty (h.cmdIn ▸ hin), h⟩
  | .reset :: rest =>
    exact ⟨_, _, step_of_reset hin, step_of_reset (h.cmdIn ▸ hin), (h.setCmdIn rest).resetEvent⟩
  | .command w :: rest =>
    rw [step_of_command hin, step_of_command (h.cmdIn ▸ hin)]
    cases hd : decode w with
    | error e => exact ⟨_, _, runWord_of_error hd _, runWord_of_error hd _, (h.setCmdIn rest).answer _⟩
    | ok i =>
      rw [runWord_of_ok hd, runWord_of_ok hd]
      exact (h.setCmdIn rest).exec_answers_alike (hs.frame s.hseed rest s.rspOut) (hs'.frame s'.hseed rest s'.rspOut) i

end SameVisible

/-- Settles O56: the response channel is among what the two next states have in common. -/
theorem unspecifiedContentsStayInvisible : Obligations.UnspecifiedContentsStayInvisible := by
  intro s s' t hs hs' h hstep
  obtain ⟨t₁, t', ht₁, ht', hvis⟩ := h.step_answers_alike hs hs'
  cases hstep.symm.trans ht₁
  exact ⟨t', ht', hvis⟩

end Sys2Proof.Machine
end

section
/-! SUPPORT. Runs of pushes (40_hash_engine.md R105, R113, R114): a push with room absorbs its bytes and answers OK, and absorbing
neither reads nor writes the response channel, so a run of PUSHBs is the fold of `State.absorb` with one response per byte. -/

namespace Sys2Proof.Machine

@[simp] theorem length_wordBytes (w : Word) : (wordBytes w).length = 4 := rfl

/-- An answered command hands its state to the rest of the run (R47). -/
theorem runAll_cons_of_next {i : Instr} {s t : State} (h : exec i s = .next t) (is : List Instr) :
    runAll (i :: is) s = runAll is t := by
  simp only [runAll, h]

/-- PUSHB in an open message with room for a byte (R113). -/
theorem exec_pushb_of_room {s : State} (hm : s.mode ≠ .idle) (hr : s.len.toNat + 1 ≤ maxLen) (byte : Byte) :
    exec (.pushb byte) s = .next ((s.absorb byte).answer okZero) :=
  (whenOpen_pos hm).trans (whenRoom_pos hr)

/-- PUSHW in an open message with room for four bytes (R114). -/
theorem exec_pushw_of_room {s : State} (hm : s.mode ≠ .idle) (hr : s.len.toNat + 4 ≤ maxLen) (w : Word) :
    exec (.pushw w) s = .next (((wordBytes w).foldl State.absorb s).answer okZero) :=
  (whenOpen_pos hm).trans (whenRoom_pos hr)

/-- LEN does not wrap while there is room (R29). -/
theorem State.toNat_absorb_len {s : State} (hr : s.len.toNat + 1 ≤ maxLen) (byte : Byte) :
    (s.absorb byte).len.toNat = s.len.toNat + 1 := by
  unfold maxLen at hr
  simp only [State.absorb_len, BitVec.toNat_add, BitVec.ofNat_eq_ofNat, BitVec.toNat_ofNat]
  omega

/-- A response does not outlast a change of the response channel. -/
theorem State.answer_setResponses (s : State) (r : Response) (responses : List Response) :
    { s.answer r with rspOut := responses } = { s with rspOut := responses } := rfl

/-- Absorbing a byte commutes with any change of the response channel. -/
theorem State.absorb_setResponses (s : State) (responses : List Response) (byte : Byte) :
    { s with rspOut := responses }.absorb byte = { s.absorb byte with rspOut := responses } := by
  unfold State.absorb
  split <;> rfl

theorem foldl_absorb_setResponses (bytes : List Byte) (s : State) (responses : List Response) :
    bytes.foldl State.absorb { s with rspOut := responses } =
      { bytes.foldl State.absorb s with rspOut := responses } := by
  induction bytes generalizing s with
  | nil => rfl
  | cons byte bytes ih => rw [List.foldl_cons, List.foldl_cons, State.absorb_setResponses, ih]

/-- PUSHBs with room for all their bytes absorb them in order, with one OK each. -/
theorem runAll_pushes (bytes : List Byte) {s : State} (hm : s.mode ≠ .idle)
    (hr : s.len.toNat + bytes.length ≤ maxLen) :
    runAll (pushes bytes) s = .next { bytes.foldl State.absorb s with
      rspOut := s.rspOut ++ List.replicate bytes.length okZero } := by
  induction bytes generalizing s with
  | nil => simp [pushes, runAll]
  | cons byte bytes ih =>
    rw [List.length_cons] at hr
    have hr1 : s.len.toNat + 1 ≤ maxLen := by omega
    have hm' : ((s.absorb byte).answer okZero).mode ≠ .idle := (s.absorb_mode byte).symm ▸ hm
    have hr' : ((s.absorb byte).answer okZero).len.toNat + bytes.length ≤ maxLen := by
      rw [State.answer_len, State.toNat_absorb_len hr1]
      omega
    calc runAll (pushes (byte :: bytes)) s
        = runAll (pushes bytes) ((s.absorb byte).answer okZero) :=
          runAll_cons_of_next (exec_pushb_of_room hm hr1 byte) _
      _ = .next { bytes.foldl State.absorb (s.absorb byte) with
            rspOut := ((s.absorb byte).rspOut ++ [okZero]) ++ List.replicate bytes.length okZero } := by
          rw [ih hm' hr', State.answer, foldl_absorb_setResponses]
      _ = _ := by
          rw [State.absorb_rspOut, List.append_assoc, List.singleton_append, ← List.replicate_succ]
          rfl

/-- Settles O20: both leave the fold of `State.absorb` over the word's bytes, with one response or four. -/
theorem pushwIsFourPushbs : Obligations.PushwIsFourPushbs := by
  intro w s hm hlen
  have hr : s.len.toNat + (wordBytes w).length ≤ maxLen := by
    rw [length_wordBytes]
    unfold maxLen
    omega
  refine ⟨((wordBytes w).foldl State.absorb s).answer okZero, exec_pushw_of_room hm hr w, ?_⟩
  rw [runAll_pushes _ hm hr, State.answer_setResponses, length_wordBytes]

end Sys2Proof.Machine
end

section
/-! SUPPORT. Decoding and encoding of command words (30_encoding.md R60 to R66): what each opcode's words decode to, field by
field, and which words a row of the opcode map selects. -/

namespace Sys2Proof.Machine

/-! ### The words of each opcode -/

section Fields

variable {op : Byte}

/-- An opcode decodes its words in format N if the decoder sends them there. -/
theorem decodesN_of_opField {i : Instr} (h : ∀ w, opField w = op → decode w = decodeN w i) : DecodesN op i :=
  fun aux arg => by rw [h _ (opField_cmdWord op aux arg), decodeN, auxField_cmdWord, argField_cmdWord]

/-- An opcode decodes its words in format A if the decoder sends them there. -/
theorem decodesA_of_opField {i : Word → Instr} (h : ∀ w, opField w = op → decode w = decodeA w i) : DecodesA op i :=
  fun aux arg => by rw [h _ (opField_cmdWord op aux arg), decodeA, auxField_cmdWord, argField_cmdWord]

/-- An opcode decodes its words in format X if the decoder sends them there. -/
theorem decodesX_of_opField {i : Byte → Instr} (h : ∀ w, opField w = op → decode w = decodeX w i) : DecodesX op i :=
  fun aux arg => by rw [h _ (opField_cmdWord op aux arg), decodeX, auxField_cmdWord, argField_cmdWord]

/-- An opcode decodes its words in format XA if the decoder sends them there. -/
theorem decodesXA_of_opField {i : Byte → Word → Instr} (h : ∀ w, opField w = op → decode w = decodeXA w i) :
    DecodesXA op i :=
  fun aux arg => by rw [h _ (opField_cmdWord op aux arg), decodeXA, auxField_cmdWord, argField_cmdWord]

end Fields

theorem decodesA_setseed : DecodesA 0x01 .setseed := decodesA_of_opField fun _ h => by rw [decode, h]; rfl
theorem decodesN_getseed : DecodesN 0x02 .getseed := decodesN_of_opField fun _ h => by rw [decode, h]; rfl
theorem decodesN_hbegin : DecodesN 0x03 .hbegin := decodesN_of_opField fun _ h => by rw [decode, h]; rfl
theorem decodesN_hend : DecodesN 0x04 .hend := decodesN_of_opField fun _ h => by rw [decode, h]; rfl
theorem decodesX_pushb : DecodesX 0x08 .pushb := decodesX_of_opField fun _ h => by rw [decode, h]; rfl
theorem decodesA_pushw : DecodesA 0x09 .pushw := decodesA_of_opField fun _ h => by rw [decode, h]; rfl
theorem decodesN_mabort : DecodesN 0x0A .mabort := decodesN_of_opField fun _ h => by rw [decode, h]; rfl
theorem decodesXA_config : DecodesXA 0x10 .config := decodesXA_of_opField fun _ h => by rw [decode, h]; rfl
theorem decodesN_abegin : DecodesN 0x11 .abegin := decodesN_of_opField fun _ h => by rw [decode, h]; rfl
theorem decodesN_aend : DecodesN 0x12 .aend := decodesN_of_opField fun _ h => by rw [decode, h]; rfl
theorem decodesN_estimate : DecodesN 0x13 .estimate := decodesN_of_opField fun _ h => by rw [decode, h]; rfl
theorem decodesN_clear : DecodesN 0x14 .clear := decodesN_of_opField fun _ h => by rw [decode, h]; rfl
theorem decodesN_getm : DecodesN 0x15 .getm := decodesN_of_opField fun _ h => by rw [decode, h]; rfl
theorem decodesN_getb : DecodesN 0x16 .getb := decodesN_of_opField fun _ h => by rw [decode, h]; rfl
theorem decodesA_rdreg : DecodesA 0x17 .rdreg := decodesA_of_opField fun _ h => by rw [decode, h]; rfl

/-- Settles O1: `encode` writes the unused fields as 0, and each opcode decodes such words to its command. -/
theorem decodeInvertsEncode : Obligations.DecodeInvertsEncode := by
  intro i
  cases i with
  | setseed seed => exact decodesA_setseed 0 seed
  | getseed => exact decodesN_getseed 0 0
  | hbegin => exact decodesN_hbegin 0 0
  | hend => exact decodesN_hend 0 0
  | pushb byte => exact decodesX_pushb byte 0
  | pushw w => exact decodesA_pushw 0 w
  | mabort => exact decodesN_mabort 0 0
  | config b seed => exact decodesXA_config b seed
  | abegin => exact decodesN_abegin 0 0
  | aend => exact decodesN_aend 0 0
  | estimate => exact decodesN_estimate 0 0
  | clear => exact decodesN_clear 0 0
  | getm => exact decodesN_getm 0 0
  | getb => exact decodesN_getb 0 0
  | rdreg index => exact decodesA_rdreg 0 index


/-! ### The word of a decoded command -/

/-- A word is the word of its three fields, known one by one (R60). -/
theorem cmdWord_eq_of_fields {w : CmdWord} {op aux : Byte} {arg : Word} (hop : (opField w).toNat = op.toNat)
    (haux : auxField w = aux) (harg : argField w = arg) : cmdWord op aux arg = w := by
  rw [← BitVec.eq_of_toNat_eq hop, ← haux, ← harg, cmdWord_fields]

theorem decodeN_eq_ok {w : CmdWord} {i j : Instr} (h : decodeN w i = .ok j) :
    j = i ∧ auxField w = 0 ∧ argField w = 0 := by
  unfold decodeN at h
  split at h
  · cases h
  · next haux =>
    split at h
    · cases h
    · next harg =>
      cases h
      exact ⟨rfl, not_not.mp haux, not_not.mp harg⟩

theorem decodeA_eq_ok {w : CmdWord} {i : Word → Instr} {j : Instr} (h : decodeA w i = .ok j) :
    j = i (argField w) ∧ auxField w = 0 := by
  unfold decodeA at h
  split at h
  · cases h
  · next haux =>
    cases h
    exact ⟨rfl, not_not.mp haux⟩

theorem decodeX_eq_ok {w : CmdWord} {i : Byte → Instr} {j : Instr} (h : decodeX w i = .ok j) :
    j = i (auxField w) ∧ argField w = 0 := by
  unfold decodeX at h
  split at h
  · cases h
  · next harg =>
    cases h
    exact ⟨rfl, not_not.mp harg⟩

/-- Settles O2: the opcode's format has checked every field that is no operand, and the operands are the other fields. -/
theorem encodeInvertsDecode : Obligations.EncodeInvertsDecode := by
  intro w i h
  unfold decode at h
  split at h
  -- format A: SETSEED, PUSHW, RDREG
  case h_1 hop | h_6 hop | h_15 hop =>
    obtain ⟨rfl, haux⟩ := decodeA_eq_ok h
    exact cmdWord_eq_of_fields hop haux rfl
  -- format X: PUSHB
  case h_5 hop =>
    obtain ⟨rfl, harg⟩ := decodeX_eq_ok h
    exact cmdWord_eq_of_fields hop rfl harg
  -- format XA: CONFIG
  case h_8 hop =>
    cases h
    exact cmdWord_eq_of_fields hop rfl rfl
  -- no opcode of the map
  case h_16 => cases h
  -- format N: the other commands
  all_goals
    next hop =>
      obtain ⟨rfl, haux, harg⟩ := decodeN_eq_ok h
      exact cmdWord_eq_of_fields hop haux harg

/-! ### The opcode map -/

/-- The command of a mnemonic with the operand fields of a word, as far as it has operands (R63). -/
def commandOf : Mnemonic → Byte → Word → Instr
  | .SETSEED, _, arg => .setseed arg
  | .GETSEED, _, _ => .getseed
  | .HBEGIN, _, _ => .hbegin
  | .HEND, _, _ => .hend
  | .PUSHB, aux, _ => .pushb aux
  | .PUSHW, _, arg => .pushw arg
  | .MABORT, _, _ => .mabort
  | .CONFIG, aux, arg => .config aux arg
  | .ABEGIN, _, _ => .abegin
  | .AEND, _, _ => .aend
  | .ESTIMATE, _, _ => .estimate
  | .CLEAR, _, _ => .clear
  | .GETM, _, _ => .getm
  | .GETB, _, _ => .getb
  | .RDREG, _, arg => .rdreg arg

theorem mnemonicOf_commandOf (k : Mnemonic) (aux : Byte) (arg : Word) : mnemonicOf (commandOf k aux arg) = k := by
  cases k <;> rfl

/-- A row's command is encoded with the row's opcode and with the fields its format uses. -/
theorem encode_commandOf {r : OpRow} (hr : r ∈ opcodeMap) (aux : Byte) (arg : Word) :
    encode (commandOf r.mnemonic aux arg) =
      cmdWord r.op (if r.format = .X ∨ r.format = .XA then aux else 0)
        (if r.format = .A ∨ r.format = .XA then arg else 0) := by
  fin_cases hr <;> rfl

/-- A row that selects a word gives its opcode, and the fields its format does not use are 0 (R62). -/
theorem fields_of_selects {r : OpRow} {w : CmdWord} (h : r.selects w = true) :
    opField w = r.op ∧ (¬(r.format = .X ∨ r.format = .XA) → auxField w = 0) ∧
      (¬(r.format = .A ∨ r.format = .XA) → argField w = 0) := by
  have hw : cmdWord (opField w) (if r.format = .X ∨ r.format = .XA then 0 else auxField w)
      (if r.format = .A ∨ r.format = .XA then 0 else argField w) = cmdWord r.op 0 0 := by
    rw [← Laws.EncodesToRow.cmdWord_and_mask, cmdWord_fields, ← Laws.EncodesToRow.pattern_eq]
    exact eq_of_beq h
  refine ⟨?_, fun hf => ?_, fun hf => ?_⟩
  · simpa using congrArg opField hw
  · simpa [hf] using congrArg auxField hw
  · simpa [hf] using congrArg argField hw

/-- The row's command with the word's fields is encoded as the word the row selects. -/
theorem encode_commandOf_of_selects {r : OpRow} (hr : r ∈ opcodeMap) {w : CmdWord} (h : r.selects w = true) :
    encode (commandOf r.mnemonic (auxField w) (argField w)) = w := by
  obtain ⟨hop, haux, harg⟩ := fields_of_selects h
  rw [encode_commandOf hr]
  refine cmdWord_eq_of_fields (congrArg BitVec.toNat hop) ?_ ?_
  · split
    · rfl
    · next hf => exact haux hf
  · split
    · rfl
    · next hf => exact harg hf

open Laws.EncodesToRow in
/-- Every command's word is selected by the row of its mnemonic (R62, R64). -/
theorem encodesToRow (i : Instr) : Statement i := by
  cases i with
  | setseed seed => exact setseed seed
  | getseed => exact getseed
  | hbegin => exact hbegin
  | hend => exact hend
  | pushb byte => exact pushb byte
  | pushw w => exact pushw w
  | mabort => exact mabort
  | config b seed => exact config b seed
  | abegin => exact abegin
  | aend => exact aend
  | estimate => exact estimate
  | clear => exact clear
  | getm => exact getm
  | getb => exact getb
  | rdreg index => exact rdreg index

/-- Settles O3: a selected word is the encoding of its row's command, and a word that decodes is the encoding of its command,
which that command's row selects. -/
theorem decodeFollowsOpcodeMap : Obligations.DecodeFollowsOpcodeMap := by
  refine fun w => ⟨fun r hr hsel => ?_, fun hnone => ?_⟩
  · have henc := encode_commandOf_of_selects hr hsel
    have hdec := decodeInvertsEncode (commandOf r.mnemonic (auxField w) (argField w))
    rw [henc] at hdec
    exact ⟨_, hdec, mnemonicOf_commandOf _ _ _, henc⟩
  · cases hd : decode w with
    | error e => exact ⟨e, rfl⟩
    | ok i =>
      obtain ⟨r, hr, -, hsel⟩ := encodesToRow i
      rw [encodeInvertsDecode w i hd, hnone r hr] at hsel
      cases hsel

end Sys2Proof.Machine
end

section
/-! SUPPORT. Assembler lines (30_encoding.md R69): how many operands a well-formed line has and how large each is. -/

namespace Sys2Proof.Machine

section

variable {k : Mnemonic} {ns : List Nat}

theorem wellFormed_iff_of_no_operand (hk : k.operandWidths = []) :
    AsmLine.wellFormed ⟨k, ns⟩ = true ↔ ns = [] := by
  simp [AsmLine.wellFormed, hk]

theorem wellFormed_iff_of_one_operand {a : Nat} (hk : k.operandWidths = [a]) :
    AsmLine.wellFormed ⟨k, ns⟩ = true ↔ ∃ n, ns = [n] ∧ n < 2 ^ a := by
  refine ⟨fun h => ?_, fun ⟨n, hns, hn⟩ => by simpa [AsmLine.wellFormed, hk, hns] using hn⟩
  obtain ⟨hlen, hall⟩ := Bool.and_eq_true_iff.mp h
  rw [hk] at hlen hall
  obtain ⟨n, rfl⟩ := List.length_eq_one_iff.mp (eq_of_beq hlen)
  exact ⟨n, rfl, by simpa using hall⟩

theorem wellFormed_iff_of_two_operands {a b : Nat} (hk : k.operandWidths = [a, b]) :
    AsmLine.wellFormed ⟨k, ns⟩ = true ↔ ∃ n p, ns = [n, p] ∧ n < 2 ^ a ∧ p < 2 ^ b := by
  refine ⟨fun h => ?_, fun ⟨n, p, hns, hn, hp⟩ => by simpa [AsmLine.wellFormed, hk, hns] using ⟨hn, hp⟩⟩
  obtain ⟨hlen, hall⟩ := Bool.and_eq_true_iff.mp h
  rw [hk] at hlen hall
  obtain ⟨n, p, rfl⟩ := List.length_eq_two.mp (eq_of_beq hlen)
  exact ⟨n, p, rfl, by simpa using hall⟩

/-- A well-formed line is the command of its mnemonic and its operands. -/
theorem instrOfLine_of_wellFormed (h : AsmLine.wellFormed ⟨k, ns⟩ = true) :
    ∃ i, instrOfLine ⟨k, ns⟩ = some i ∧ mnemonicOf i = k ∧ operandsOf i = ns := by
  cases k
  case SETSEED | PUSHB | PUSHW | RDREG =>
    obtain ⟨n, rfl, hn⟩ := (wellFormed_iff_of_one_operand rfl).mp h
    exact ⟨_, if_pos h, rfl, congrArg (fun x => [x]) (Nat.mod_eq_of_lt hn)⟩
  case CONFIG =>
    obtain ⟨n, p, rfl, hn, hp⟩ := (wellFormed_iff_of_two_operands rfl).mp h
    exact ⟨_, if_pos h, rfl, congrArg₂ (fun x y => [x, y]) (Nat.mod_eq_of_lt hn) (Nat.mod_eq_of_lt hp)⟩
  all_goals
    obtain rfl := (wellFormed_iff_of_no_operand rfl).mp h
    exact ⟨_, if_pos h, rfl, rfl⟩

end

/-- A command's operands are as many as its fields and fit them. -/
theorem wellFormed_line (i : Instr) : AsmLine.wellFormed ⟨mnemonicOf i, operandsOf i⟩ = true := by
  cases i with
  | setseed x | pushb x | pushw x | rdreg x =>
    exact (wellFormed_iff_of_one_operand rfl).mpr ⟨_, rfl, x.isLt⟩
  | config b seed => exact (wellFormed_iff_of_two_operands rfl).mpr ⟨_, _, rfl, b.isLt, seed.isLt⟩
  | _ => exact (wellFormed_iff_of_no_operand rfl).mpr rfl

/-- A command's line is read as the command. -/
theorem instrOfLine_line (i : Instr) : instrOfLine ⟨mnemonicOf i, operandsOf i⟩ = some i := by
  rw [instrOfLine, if_pos (wellFormed_line i)]
  cases i <;> simp [mnemonicOf, operandsOf]

/-- Settles O5: `instrOfLine` answers a command exactly where the operands are as many as the fields and fit them. -/
theorem assemblerLinesAreCommands : Obligations.AssemblerLinesAreCommands :=
  ⟨fun _ h => instrOfLine_of_wellFormed h, fun _ h => if_neg (Bool.eq_false_iff.mp h), instrOfLine_line⟩

end Sys2Proof.Machine
end

section
/-! SUPPORT. The step on a command word (70_reset_and_hazards.md R240). -/

namespace Sys2Proof.Machine

/-- Settles O6: the step takes the word off the channel, and the word is run as the command it decodes to. -/
theorem stepRunsDecodedCommand : Obligations.StepRunsDecodedCommand := by
  intro s w rest i hin hd
  rw [step_of_command hin, runWord_of_ok hd]

end Sys2Proof.Machine
end

section
/-! SUPPORT. What an answered command leaves, in any state at all: refused by its phase, refused before a CONFIG, or
`admittedOutcome`. From it the one response per command (30_encoding.md R61) and the admission table (R71). -/

namespace Sys2Proof.Machine

/-! ### The outcome of an answered command -/

theorem eq_of_next {k : Result} {t u : State} (hu : k = .next u) (ht : k = .next t) : t = u :=
  Host.Outcome.next.inj (ht.symm.trans hu)

/-- An admitted command that is answered leaves `admittedOutcome`: a state that breaks the invariants can only add faults
(log entry 10). -/
theorem eq_admittedOutcome {i : Instr} {s t : State} (ha : admittedIn i s.mode = true)
    (hc : needsConfig i = true → s.cfgv = true) (h : exec i s = .next t) : t = admittedOutcome i s := by
  cases i with
  | setseed | getseed | hbegin => exact eq_of_next (whenIdle_pos (eq_of_beq ha)) h
  | hend => exact eq_of_next (whenPhase_pos (eq_of_beq ha)) h
  | mabort => exact eq_of_next (whenOpen_pos (bne_iff_ne.mp ha)) h
  | abegin | getm | getb => exact eq_of_next (whenConfigured_pos (eq_of_beq ha) (hc rfl)) h
  | aend => exact eq_of_next rfl (withCells_next ((whenPhase_pos (eq_of_beq ha)).symm.trans h)).2
  | clear => exact eq_of_next rfl (withCells_next ((whenConfigured_pos (eq_of_beq ha) (hc rfl)).symm.trans h)).2
  | pushb byte =>
    rcases whenRoom_next ((whenOpen_pos (bne_iff_ne.mp ha)).symm.trans h) with ⟨hr, hk⟩ | ⟨hr, rfl⟩
    · rw [admittedOutcome_of_none (i := .pushb byte) (if_neg (by unfold maxLen at hr; omega))]
      exact eq_of_next rfl hk
    · rw [admittedOutcome_of_some (i := .pushb byte) (if_pos (by unfold maxLen at hr; omega))]
  | pushw w =>
    rcases whenRoom_next ((whenOpen_pos (bne_iff_ne.mp ha)).symm.trans h) with ⟨hr, hk⟩ | ⟨hr, rfl⟩
    · rw [admittedOutcome_of_none (i := .pushw w) (if_neg (by unfold maxLen at hr; omega))]
      exact eq_of_next rfl hk
    · rw [admittedOutcome_of_some (i := .pushw w) (if_pos (by unfold maxLen at hr; omega))]
  | config b seed =>
    rcases whenPrecision_next ((whenIdle_pos (eq_of_beq ha)).symm.trans h) with ⟨h4, h16, hk⟩ | ⟨hb, rfl⟩
    · rw [admittedOutcome_of_none (i := .config b seed) (if_neg (by omega))]
      exact eq_of_next rfl hk
    · rw [admittedOutcome_of_some (i := .config b seed) (if_pos hb)]
  | rdreg index =>
    rcases whenIndex_next ((whenConfigured_pos (eq_of_beq ha) (hc rfl)).symm.trans h) with ⟨hj, hk⟩ | ⟨hj, rfl⟩
    · rw [admittedOutcome_of_none (i := .rdreg index) (if_neg (not_le.mpr hj))]
      exact eq_of_next rfl (withCells_next hk).2
    · rw [admittedOutcome_of_some (i := .rdreg index) (if_pos hj)]
  | estimate =>
    obtain ⟨-, hk⟩ := withCells_next ((whenConfigured_pos (eq_of_beq ha) (hc rfl)).symm.trans h)
    split at hk
    · cases hk
    · split at hk
      · next r he =>
        exact (eq_of_next rfl hk).trans (by simp [admittedOutcome, ownCheck, resultOf, effectOf, he])
      · next he => exact (eq_of_next rfl hk).trans (by simp [admittedOutcome, ownCheck, he])

/-- The three outcomes of an answered command, in the order of its checks (R71, R202). -/
theorem exec_next_cases {i : Instr} {s t : State} (h : exec i s = .next t) :
    t = s.answer ⟨.seq, 0⟩ ∨ t = s.answer ⟨.nocfg, 0⟩ ∨ t = admittedOutcome i s := by
  cases ha : admittedIn i s.mode
  · exact .inl (eq_of_next (exec_of_not_admitted ha) h)
  · by_cases hc : needsConfig i = true → s.cfgv = true
    · exact .inr (.inr (eq_admittedOutcome ha hc h))
    · obtain ⟨hn, hc⟩ := Classical.not_imp.mp hc
      exact .inr (.inl (eq_of_next (exec_of_not_configured ha hn (Bool.eq_false_of_not_eq_true hc)) h))

/-! ### One response -/

theorem foldl_absorb_cmdIn (bytes : List Byte) (s : State) : (bytes.foldl State.absorb s).cmdIn = s.cmdIn := by
  induction bytes generalizing s with
  | nil => rfl
  | cons byte bytes ih => rw [List.foldl_cons, ih, State.absorb_cmdIn]

/-- A command's effect leaves the command channel (log entry 1). -/
theorem effectOf_cmdIn (i : Instr) (s : State) : (effectOf i s).cmdIn = s.cmdIn := by
  cases i with
  | pushb byte => exact s.absorb_cmdIn byte
  | pushw w => exact foldl_absorb_cmdIn _ s
  | _ => rfl

/-- A command without a result answers data 0 (R61). -/
theorem resultOf_of_no_result {i : Instr} (h : hasResult i = false) (s : State) : resultOf i s = 0 := by
  cases i with
  | getseed | hend | estimate | getm | getb | rdreg => cases h
  | _ => rfl

/-- An answered command has given one response, with data 0 unless it carried out a command with a result. -/
theorem exec_next_response {i : Instr} {s t : State} (h : exec i s = .next t) :
    t.cmdIn = s.cmdIn ∧
      ∃ r : Response, t.rspOut = s.rspOut ++ [r] ∧ (r.data ≠ 0 → r.status = .ok ∧ hasResult i = true) := by
  have refused : ∀ st, (s.answer ⟨st, 0⟩).cmdIn = s.cmdIn ∧ ∃ r : Response,
      (s.answer ⟨st, 0⟩).rspOut = s.rspOut ++ [r] ∧ (r.data ≠ 0 → r.status = .ok ∧ hasResult i = true) :=
    fun st => ⟨rfl, ⟨st, 0⟩, rfl, fun hd => absurd rfl hd⟩
  rcases exec_next_cases h with rfl | rfl | rfl
  · exact refused _
  · exact refused _
  · cases hown : ownCheck i s with
    | some st => exact admittedOutcome_of_some hown ▸ refused st
    | none =>
      rw [admittedOutcome_of_none hown, State.answer_cmdIn, State.answer_rspOut, effectOf_cmdIn, effectOf_rspOut]
      refine ⟨rfl, _, rfl, fun hd => ⟨rfl, ?_⟩⟩
      exact Bool.eq_true_of_not_eq_false fun hno => hd (resultOf_of_no_result hno s)

/-- Settles O11: by the three outcomes of an answered command. -/
theorem oneResponsePerCommand : Obligations.OneResponsePerCommand := by
  refine ⟨fun _ _ _ h => exec_next_response h,
    fun _ => ⟨BitVec.extractLsb'_append_eq_left, BitVec.extractLsb'_append_eq_right⟩, fun st => ?_⟩
  cases st <;> decide

/-! ### Admission -/

/-- No command's own check answers SEQ or NOCFG (R201). -/
theorem ownCheck_ne_seq_nocfg {i : Instr} {s : State} {st : Status} (h : ownCheck i s = some st) :
    st ≠ .seq ∧ st ≠ .nocfg := by
  cases i with
  | pushb | pushw | config | rdreg | estimate =>
    simp only [ownCheck] at h
    split at h <;> cases h
    exact ⟨by decide, by decide⟩
  | _ => cases h

theorem admittedOutcome_response (i : Instr) (s : State) :
    ∃ r : Response, (admittedOutcome i s).rspOut = s.rspOut ++ [r] ∧ r.status ≠ .seq ∧ r.status ≠ .nocfg := by
  cases hown : ownCheck i s with
  | some st => exact ⟨⟨st, 0⟩, by rw [admittedOutcome_of_some hown]; rfl, ownCheck_ne_seq_nocfg hown⟩
  | none =>
    refine ⟨⟨.ok, resultOf i s⟩, ?_, Status.noConfusion, Status.noConfusion⟩
    rw [admittedOutcome_of_none hown, State.answer_rspOut, effectOf_rspOut]

/-- Settles O14: the phase decides first, then CFGV, and an admitted command answers OK or its own check's status. -/
theorem admissionTable : Obligations.AdmissionTable := by
  refine fun i s => ⟨exec_of_not_admitted, exec_of_not_configured, fun ha hc t r ht hr => ?_⟩
  obtain ⟨r', hr', hst⟩ := admittedOutcome_response i s
  rw [eq_admittedOutcome ha hc ht, hr'] at hr
  exact List.singleton_inj.mp (List.append_cancel_left hr) ▸ hst

end Sys2Proof.Machine
end

section
/-! SUPPORT. Messages from their opening to their end (40_hash_engine.md R104 to R107, 30_encoding.md R70): the streaming steps
compute the whole-message hash, packing the bytes of a run of pushes changes only the number of responses, and a message that is
opened, filled and closed leaves only what its end command does. -/

namespace Sys2Proof.Machine

/-! ### Bytes four by four -/

/-- Induction over a message by its blocks of four bytes and its tail (R104). -/
theorem block_induction {P : List Byte → Prop} (nil : P []) (one : ∀ b0, P [b0]) (two : ∀ b0 b1, P [b0, b1])
    (three : ∀ b0 b1 b2, P [b0, b1, b2])
    (block : ∀ b0 b1 b2 b3 rest, P rest → P (b0 :: b1 :: b2 :: b3 :: rest)) : ∀ bytes, P bytes
  | [] => nil
  | [b0] => one b0
  | [b0, b1] => two b0 b1
  | [b0, b1, b2] => three b0 b1 b2
  | b0 :: b1 :: b2 :: b3 :: rest => block b0 b1 b2 b3 rest (block_induction nil one two three block rest)

/-- The bytes of a block word are the bytes it was made of (R42, R43). -/
theorem wordBytes_leWord (b0 b1 b2 b3 : Byte) : wordBytes (leWord b0 b1 b2 b3) = [b0, b1, b2, b3] := by
  simp only [wordBytes, leWord, List.cons.injEq, and_true]
  refine ⟨?_, ?_, ?_, ?_⟩
  all_goals
    apply BitVec.eq_of_getLsbD_eq
    intro i hi
    simp only [BitVec.getLsbD_extractLsb', BitVec.getLsbD_or, BitVec.getLsbD_shiftLeft, BitVec.getLsbD_setWidth]
    interval_cases i <;> simp

/-! ### What a run of absorbed bytes leaves -/

@[simp] theorem foldl_absorb_mode (bytes : List Byte) (s : State) : (bytes.foldl State.absorb s).mode = s.mode := by
  induction bytes generalizing s with
  | nil => rfl
  | cons byte bytes ih => rw [List.foldl_cons, ih, State.absorb_mode]

@[simp] theorem foldl_absorb_b (bytes : List Byte) (s : State) : (bytes.foldl State.absorb s).b = s.b := by
  induction bytes generalizing s with
  | nil => rfl
  | cons byte bytes ih => rw [List.foldl_cons, ih, State.absorb_b]

/-- LEN counts the bytes, as long as there is room for them (R29). -/
theorem toNat_foldl_absorb_len (bytes : List Byte) {s : State} (hr : s.len.toNat + bytes.length ≤ maxLen) :
    (bytes.foldl State.absorb s).len.toNat = s.len.toNat + bytes.length := by
  induction bytes generalizing s with
  | nil => rfl
  | cons byte bytes ih =>
    rw [List.length_cons] at hr ⊢
    have hlen := State.toNat_absorb_len (s := s) (by omega) byte
    rw [List.foldl_cons, ih (by omega), hlen]
    omega

/-- Closing a message leaves nothing of the bytes absorbed (R115, R135). -/
theorem closeMessage_foldl_absorb (bytes : List Byte) (s : State) :
    (bytes.foldl State.absorb s).closeMessage = s.closeMessage := by
  induction bytes generalizing s with
  | nil => rfl
  | cons byte bytes ih =>
    rw [List.foldl_cons, ih]
    unfold State.absorb
    split <;> rfl

/-- Closing a message leaves the responses given. -/
theorem State.closeMessage_setResponses (s : State) (responses : List Response) :
    { s with rspOut := responses }.closeMessage = { s.closeMessage with rspOut := responses } := rfl

/-! ### Streaming -/

/-- From the start of a block on, the streaming steps compute the whole-message hash of what is still to come, with the length
absorbed so far (R107). -/
theorem finalize_foldl_absorb (bytes : List Byte) {s : State} (h : s.tcnt = 0) :
    (bytes.foldl State.absorb s).finalize =
      fmix32 (hashBody s.h1 bytes ^^^ (s.len + BitVec.ofNat 32 bytes.length)) := by
  induction bytes using block_induction generalizing s with
  | nil => simp [State.finalize, State.tailBytes, h, mixTail]
  | one b0 => simp [State.finalize, State.tailBytes, h, mixTail]
  | two b0 b1 => simp [State.finalize, State.tailBytes, h, mixTail, add_assoc]
  | three b0 b1 b2 => simp [State.finalize, State.tailBytes, h, mixTail, add_assoc]
  | block b0 b1 b2 b3 rest ih =>
    have hh1 : ([b0, b1, b2, b3].foldl State.absorb s).h1 = blockmix s.h1 (leWord b0 b1 b2 b3) := by simp [h]
    have htcnt : ([b0, b1, b2, b3].foldl State.absorb s).tcnt = 0 := by simp [h]
    have hlen : ([b0, b1, b2, b3].foldl State.absorb s).len + BitVec.ofNat 32 rest.length =
        s.len + BitVec.ofNat 32 (b0 :: b1 :: b2 :: b3 :: rest).length := by
      simp [BitVec.ofNat_add]
      ac_rfl
    have hsplit : b0 :: b1 :: b2 :: b3 :: rest = [b0, b1, b2, b3] ++ rest := rfl
    rw [hsplit, List.foldl_append, ih htcnt, hh1, hlen]
    rfl

/-- What HEND and AEND find: the whole-message hash of the bytes since the message was opened (R106, R107). -/
theorem finalize_message (s : State) (seed : Word) (phase : Mode) (bytes : List Byte) :
    (bytes.foldl State.absorb (s.openMessage seed phase)).finalize = hash32 seed bytes := by
  rw [finalize_foldl_absorb bytes rfl, State.openMessage_h1, State.openMessage_len, hash32]
  simp

/-! ### Packed pushes -/

/-- PUSHWs and PUSHBs with room for all their bytes absorb them in order, with one OK for each command (R70). -/
theorem runAll_packedPushes (bytes : List Byte) {s : State} (hm : s.mode ≠ .idle)
    (hr : s.len.toNat + bytes.length ≤ maxLen) :
    runAll (packedPushes bytes) s = .next { bytes.foldl State.absorb s with
      rspOut := s.rspOut ++ List.replicate (bytes.length / 4 + bytes.length % 4) okZero } := by
  induction bytes using block_induction generalizing s with
  | nil | one | two | three => exact (runAll_pushes _ hm hr).trans (by simp)
  | block b0 b1 b2 b3 rest ih =>
    have hlength : (b0 :: b1 :: b2 :: b3 :: rest).length = rest.length + 4 := rfl
    rw [hlength] at hr ⊢
    have hlen := toNat_foldl_absorb_len [b0, b1, b2, b3] (s := s) (show s.len.toNat + 4 ≤ maxLen by omega)
    have hfirst := exec_pushw_of_room hm (by omega) (leWord b0 b1 b2 b3)
    rw [wordBytes_leWord] at hfirst
    have hcount : (rest.length + 4) / 4 + (rest.length + 4) % 4 = rest.length / 4 + rest.length % 4 + 1 := by omega
    rw [packedPushes, runAll_cons_of_next hfirst, ih, State.answer, foldl_absorb_setResponses, hcount]
    · simp [List.replicate_succ]
    · simpa using hm
    · rw [State.answer_len, hlen]
      simp only [List.length_cons, List.length_nil]
      omega

/-- Settles O26: both runs leave the fold of `State.absorb` over the bytes. -/
theorem packedPushesHaveSameEffect : Obligations.PackedPushesHaveSameEffect :=
  fun _ bytes hm hr => ⟨_, runAll_pushes bytes hm hr, runAll_packedPushes bytes hm hr⟩

/-! ### The call sequences of R70 -/

theorem runAll_append {is : List Instr} {s t : State} (h : runAll is s = .next t) (js : List Instr) :
    runAll (is ++ js) s = runAll js t := by
  induction is generalizing s with
  | nil =>
    cases h
    rfl
  | cons i is ih =>
    rw [runAll] at h
    split at h
    · next u hu => rw [List.cons_append, runAll_cons_of_next hu, ih h]
    · next hstop => exact absurd h (hstop t)

theorem runAll_singleton (i : Instr) (s : State) : runAll [i] s = exec i s := by
  simp only [runAll]
  split
  · next h => exact h.symm
  · rfl

/-- With no message open there is nothing to close (I-5 of R31). -/
theorem Invariants.closeMessage_of_idle {s : State} (h : Invariants s) (hm : s.mode = .idle) : s.closeMessage = s := by
  obtain ⟨hh1, ht0, ht1, ht2, htcnt, hlen⟩ := h.idle hm
  cases s
  simp_all [State.closeMessage]

/-- A sequence that opens a message, pushes its bytes and ends it hands to the end command a state that holds the message's
hash and closes to the state it began in, every response so far being OK (R70, R107, R108). -/
theorem runAll_message {first : Instr} {s : State} {seed : Word} {phase : Mode} (hs : Invariants s) (hm : s.mode = .idle)
    (hfirst : exec first s = .next ((s.openMessage seed phase).answer okZero)) (hp : phase ≠ .idle)
    {bytes : List Byte} (hr : bytes.length ≤ maxLen) (last : Instr) :
    ∃ u : State, runAll (first :: (pushes bytes ++ [last])) s = exec last u ∧
      u.mode = phase ∧ u.m = s.m ∧ u.b = s.b ∧ u.finalize = hash32 seed bytes ∧
      u.closeMessage = { s with rspOut := s.rspOut ++ List.replicate (bytes.length + 1) okZero } := by
  have hpushes := runAll_pushes bytes (s := (s.openMessage seed phase).answer okZero) hp (by simpa using hr)
  have hclose : (bytes.foldl State.absorb (s.openMessage seed phase)).closeMessage = s :=
    (closeMessage_foldl_absorb bytes _).trans (hs.closeMessage_of_idle hm)
  refine ⟨{ bytes.foldl State.absorb (s.openMessage seed phase) with
    rspOut := s.rspOut ++ List.replicate (bytes.length + 1) okZero }, ?_, foldl_absorb_mode bytes _,
    foldl_absorb_m bytes _, foldl_absorb_b bytes _, finalize_message s seed phase bytes, ?_⟩
  · rw [runAll_cons_of_next hfirst, runAll_append hpushes, runAll_singleton, State.answer, foldl_absorb_setResponses]
    simp [List.replicate_succ]
  · rw [State.closeMessage_setResponses, hclose]

/-- Settles O25: HEND answers the hash of the message and closes it. -/
theorem hashMacroAnswersHash : Obligations.HashMacroAnswersHash := by
  intro s bytes hs hm hr
  obtain ⟨u, hrun, hmode, -, -, hhash, hclose⟩ :=
    runAll_message hs hm (first := .hbegin) (whenIdle_pos hm) (by decide) hr .hend
  have hend : exec .hend u = .next (u.closeMessage.answer ⟨.ok, dataOfWord u.finalize⟩) := whenPhase_pos hmode
  rw [hashMsg, hrun, hend, hclose, hhash]
  simp [State.answer, dataOfWord]

/-- Settles O38: AEND updates the register file by the hash of the item and closes it. -/
theorem addMacroUpdatesRegisters : Obligations.AddMacroUpdatesRegisters := by
  intro s item hs hm hc hr
  obtain ⟨u, hrun, hmode, hcells, hb, hhash, hclose⟩ :=
    runAll_message hs hm (first := .abegin) (whenConfigured_pos hm hc) (by decide) hr .aend
  have hcell : regIndex u.finalize u.b < physCells := hb ▸ hs.regIndex_lt_physCells hc _
  have haend : exec .aend u =
      .next ({ u.closeMessage with m := updateCells u.m u.finalize u.b }.answer okZero) :=
    (whenPhase_pos hmode).trans (withCells_pos hcell)
  rw [addMsg, hrun, haend, hclose, hhash, hcells, hb]
  simp [State.answer, addItem, List.replicate_succ']

end Sys2Proof.Machine
end

section
/-! SUPPORT. The hash engine's commands (40_hash_engine.md R105, R106, R110 to R116): what each answers in its phase and out of it. -/

namespace Sys2Proof.Machine

/-! ### Commands that read or open, and commands that close -/

/-- Settles O15: in IDLE the effect is the new seed, in every other phase the check of the phase answers. -/
theorem setseedWritesHseed : Obligations.SetseedWritesHseed :=
  ⟨decodesA_setseed, fun _ _ => whenIdle_pos, fun _ _ => whenIdle_neg⟩

/-- Settles O16: the state that is answered from is the state itself. -/
theorem getseedReadsHseed : Obligations.GetseedReadsHseed :=
  ⟨decodesN_getseed, fun _ => whenIdle_pos, fun _ => whenIdle_neg⟩

/-- Settles O17: the effect is `State.openMessage`, which reads HSEED and leaves TAIL. -/
theorem hbeginOpensHashMessage : Obligations.HbeginOpensHashMessage :=
  ⟨decodesN_hbegin, fun _ => whenIdle_pos, fun _ => whenIdle_neg⟩

/-- Settles O22: the answer is made from the state before `State.closeMessage`. -/
theorem hendAnswersHash : Obligations.HendAnswersHash :=
  ⟨decodesN_hend, fun _ => whenPhase_pos, fun _ => whenPhase_neg⟩

/-- Settles O23: the effect is `State.closeMessage`, in either phase of an open message. -/
theorem mabortDropsMessage : Obligations.MabortDropsMessage :=
  ⟨decodesN_mabort, fun _ => whenOpen_pos, fun _ => whenOpen_neg⟩

/-! ### Pushes -/

/-- A byte joins the tail while the block is not complete (R105). -/
theorem State.absorb_of_partial {s : State} (h : s.tcnt ≠ 3) (byte : Byte) :
    s.absorb byte = { s.setTail s.tcnt byte with tcnt := s.tcnt + 1, len := s.len + 1 } := if_neg h

/-- The fourth byte completes the block, and TAIL keeps its bytes (R105). -/
theorem State.absorb_of_full {s : State} (h : s.tcnt = 3) (byte : Byte) :
    s.absorb byte =
      { s with h1 := blockmix s.h1 (leWord s.tail0 s.tail1 s.tail2 byte), tcnt := 0, len := s.len + 1 } := if_pos h

/-- Settles O18: with room the effect is `State.absorb`, in its two cases. -/
theorem pushbAbsorbsOneByte : Obligations.PushbAbsorbsOneByte := by
  refine ⟨decodesX_pushb, fun byte s hm hr htcnt => ?_, fun byte s hm hr htcnt => ?_, fun _ _ => whenOpen_neg,
    fun byte s hm hr => (whenOpen_pos hm).trans (whenRoom_neg (by unfold maxLen; omega))⟩
  · rw [exec_pushb_of_room hm (by unfold maxLen; omega), State.absorb_of_partial htcnt]
    rfl
  · rw [exec_pushb_of_room hm (by unfold maxLen; omega), State.absorb_of_full htcnt]
    rfl

/-- Settles O19: whatever TCNT is, exactly one of the four bytes completes a block; at TCNT = 0 the block is the operand. -/
theorem pushwAbsorbsFourBytes : Obligations.PushwAbsorbsFourBytes := by
  refine ⟨decodesA_pushw, ?_, fun _ _ => whenOpen_neg,
    fun w s hm hr => (whenOpen_pos hm).trans (whenRoom_neg (by unfold maxLen; omega))⟩
  rintro w s w0 w1 w2 w3 hm hr rfl rfl rfl rfl
  rw [exec_pushw_of_room hm (by unfold maxLen; omega), Host.Outcome.next.injEq, wordBytes, State.answer]
  refine ⟨fun h => ?_, fun h => ?_, fun h => ?_, fun h => ?_⟩
  all_goals
    simp [State.absorb_of_partial, State.absorb_of_full, State.setTail, h, leWord_wordBytes, add_assoc]

theorem tcnt_cases (c : BitVec 2) : c = 0 ∨ c = 1 ∨ c = 2 ∨ c = 3 := by
  revert c
  decide

/-- Settles O21: a tail of one or two bytes is the `leWord` of its bytes and zeros. -/
theorem finalizeMixesTailAndLength : Obligations.FinalizeMixesTailAndLength := by
  intro s
  rcases tcnt_cases s.tcnt with h | h | h | h
  all_goals simp [State.finalize, State.tailBytes, h, mixTail, leWord]

/-- Settles O24: `finalize_foldl_absorb` at the start of a message, where the length so far is 0. -/
theorem streamingEqualsWholeMessage : Obligations.StreamingEqualsWholeMessage := by
  intro s bytes _ htcnt hlen
  rw [finalize_foldl_absorb bytes htcnt, hlen, zero_add, hash32]

end Sys2Proof.Machine
end

section
/-! SUPPORT. The mixer's steps lose nothing: each is injective on the 32-bit words, and so bijective (40_hash_engine.md R119). -/

namespace Sys2Proof.Machine

open Function

/-! ### The elementary steps -/

/-- A constant that has an inverse modulo 2^32, as every odd one has. -/
theorem mul_injective_of_inverse {c : Word} (d : Word) (h : c * d = 1) : Injective fun x : Word => c * x :=
  (IsUnit.of_mul_eq_one d h).mul_right_injective

theorem xor_left_injective (c : Word) : Injective fun x : Word => c ^^^ x := fun _ _ => (BitVec.xor_right_inj c).mp

theorem xor_right_injective (c : Word) : Injective fun x : Word => x ^^^ c := fun _ _ => (BitVec.xor_left_inj c).mp

/-- A rotation moves bit `i` to bit `i + r` round the word (R9). -/
theorem getLsbD_rotl32 (x : Word) {r i : Nat} (hr : r ≤ 32) (hi : i < 32) :
    (rotl32 x r).getLsbD ((i + r) % 32) = x.getLsbD i := by
  simp only [rotl32, BitVec.getLsbD_or, BitVec.getLsbD_shiftLeft, BitVec.getLsbD_ushiftRight]
  by_cases hwrap : i + r < 32
  · have hhigh : x.getLsbD (32 - r + (i + r)) = false := BitVec.getLsbD_of_ge _ _ (by omega)
    rw [Nat.mod_eq_of_lt hwrap, hhigh]
    simp [hwrap]
  · have hmod : (i + r) % 32 = i + r - 32 := by omega
    have hback : 32 - r + (i + r - 32) = i := by omega
    rw [hmod, hback]
    simp [show i + r - 32 < r by omega]

theorem rotl32_injective {r : Nat} (hr : r ≤ 32) : Injective fun x : Word => rotl32 x r := by
  refine fun x y h => BitVec.eq_of_getLsbD_eq fun i hi => ?_
  rw [← getLsbD_rotl32 x hr hi, ← getLsbD_rotl32 y hr hi]
  exact congrArg (BitVec.getLsbD · _) h

/-- From the top bit down: bit `i` of `x xor (x >> r)` and bit `i + r` of `x` give bit `i` of `x`. -/
theorem xorShift_injective {r : Nat} (hr : 0 < r) : Injective fun x : Word => xorShift x r := by
  intro x y h
  have hbit : ∀ i, (x.getLsbD i ^^ x.getLsbD (r + i)) = (y.getLsbD i ^^ y.getLsbD (r + i)) := fun i => by
    simpa [xorShift] using congrArg (BitVec.getLsbD · i) h
  have hdown : ∀ n i, 32 ≤ i + n → x.getLsbD i = y.getLsbD i := by
    intro n
    induction n with
    | zero => exact fun i hi => by rw [BitVec.getLsbD_of_ge x i hi, BitVec.getLsbD_of_ge y i hi]
    | succ n ih =>
      intro i hi
      have hi' := hbit i
      rwa [ih (r + i) (by omega), Bool.xor_left_inj] at hi'
  exact BitVec.eq_of_getLsbD_eq fun i _ => hdown 32 i (by omega)

/-! ### The mixing functions -/

/-- The key scramble (R101). -/
theorem mixk_injective : Injective mixk :=
  (mul_injective_of_inverse 0x56ed309b (by decide)).comp <|
    (rotl32_injective (by decide)).comp (mul_injective_of_inverse 0xdee13bb1 (by decide))

/-- One block into a fixed accumulator (R102). -/
theorem blockmix_injective (h : Word) : Injective (blockmix h) :=
  (add_right_injective mixAddc).comp <| (mul_injective_of_inverse 0xcccccccd (by decide)).comp <|
    (rotl32_injective (by decide)).comp <| (xor_left_injective h).comp mixk_injective

/-- The avalanche finaliser (R103). -/
theorem fmix32_injective : Injective fmix32 :=
  (xorShift_injective (by decide)).comp <| (mul_injective_of_inverse 0x7ed1b41d (by decide)).comp <|
    (xorShift_injective (by decide)).comp <| (mul_injective_of_inverse 0xa5cb9243 (by decide)).comp <|
      xorShift_injective (by decide)

/-! ### Four-byte messages -/

/-- A message of four bytes is one block, which is the word it was made from (R43, R104). -/
theorem hash32_wordBytes (seed w : Word) : hash32 seed (wordBytes w) = fmix32 (blockmix seed w ^^^ 4) := by
  rw [hash32, length_wordBytes, wordBytes, hashBody_block, hashBody_nil, leWord_wordBytes]
  rfl

/-- Settles O27: the hash of one block is a chain of injective steps, and the words are finitely many. -/
theorem fourByteHashIsBijective : Obligations.FourByteHashIsBijective := by
  intro seed
  simp only [hash32_wordBytes]
  exact Finite.injective_iff_bijective.mp (fmix32_injective.comp ((xor_right_injective 4).comp (blockmix_injective seed)))

end Sys2Proof.Machine
end

section
/-! SUPPORT. Index, rank and update over lists of items (41_estimator_regfile.md R130 to R132, R141, R142): the rank by the
highest set bit of its field, and the cells after any number of adds. -/

namespace Sys2Proof.Machine

/-! ### The index -/

/-- Settles O35: the shift of the index is a division, and `regIndex_lt` bounds it. -/
theorem indexIsTopBits : Obligations.IndexIsTopBits :=
  fun h b _ _ => ⟨by rw [regIndex, BitVec.toNat_ushiftRight, Nat.shiftRight_eq_div_pow], regIndex_lt h b⟩

/-! ### The rank -/

@[simp] theorem rho_zero (n : Nat) : rho 0 n = n + 1 := if_pos rfl

theorem rho_of_ne_zero {w : Nat} (h : w ≠ 0) (n : Nat) : rho w n = n - Nat.log2 w := if_neg h

/-- In an `n`-bit field the highest set bit lies below `n`, so there is always something to count. -/
theorem one_le_rho {w n : Nat} (hw : w < 2 ^ n) : 1 ≤ rho w n := by
  by_cases h : w = 0
  · rw [h, rho_zero]
    omega
  · have := (Nat.log2_lt h).mpr hw
    rw [rho_of_ne_zero h]
    omega

/-- The highest set bit is the binary logarithm. -/
theorem log2_of_highest_bit {w p : Nat} (hp : w.testBit p = true) (habove : ∀ q, p < q → w.testBit q = false) :
    Nat.log2 w = p := by
  have hlow : 2 ^ p ≤ w := Nat.ge_two_pow_of_testBit hp
  have hhigh : w < 2 ^ (p + 1) := Nat.lt_pow_two_of_testBit w habove
  exact (Nat.log2_eq_iff (by have := Nat.two_pow_pos p; omega)).mpr ⟨hlow, hhigh⟩

/-- The rank is 1 exactly when the top bit of the field is set. -/
theorem rho_eq_one_iff {w n : Nat} (hn : 0 < n) (hw : w < 2 ^ n) : rho w n = 1 ↔ w.testBit (n - 1) = true := by
  by_cases h : w = 0
  · simp [h, hn.ne']
  · have hlt := (Nat.log2_lt h).mpr hw
    rw [rho_of_ne_zero h]
    constructor
    · intro h1
      have htop : n - 1 = Nat.log2 w := by omega
      rw [htop]
      exact Nat.testBit_log2 h
    · intro htop
      have := (Nat.le_log2 h).mpr (Nat.ge_two_pow_of_testBit htop)
      omega

/-- The rank is `n` exactly when only the lowest bit of the field is set. -/
theorem rho_eq_width_iff {w n : Nat} (hn : 0 < n) : rho w n = n ↔ w = 1 := by
  by_cases h : w = 0
  · simp [h]
  · have hone : Nat.log2 w < 1 ↔ w < 2 ^ 1 := Nat.log2_lt h
    rw [rho_of_ne_zero h]
    omega

/-- The rank saturates exactly on the field of zeros. -/
theorem rho_eq_succ_iff {w n : Nat} : rho w n = n + 1 ↔ w = 0 := by
  by_cases h : w = 0
  · simp [h]
  · rw [rho_of_ne_zero h]
    omega

/-- Settles O36: rho through the binary logarithm of the field, and the rank's field as a remainder. -/
theorem rhoCountsLeadingZeros : Obligations.RhoCountsLeadingZeros := by
  refine ⟨fun w n hn _ hw => ⟨?_, fun p hp habove => ?_, one_le_rho hw, rho_le w n,
    rho_eq_one_iff (by omega) hw, rho_eq_width_iff (by omega), rho_eq_succ_iff⟩, fun h b _ _ => ⟨?_, ?_, rank_le h b⟩⟩
  · rintro rfl
    exact rho_zero n
  · have hne : w ≠ 0 := by
      rintro rfl
      simp at hp
    have hlog := log2_of_highest_bit hp habove
    exact ⟨hlog ▸ (Nat.log2_lt hne).mpr hw, by rw [rho_of_ne_zero hne, hlog]⟩
  · rw [BitVec.extractLsb'_toNat, Nat.shiftRight_zero, rank]
  · exact one_le_rho (Nat.mod_lt _ (Nat.two_pow_pos _))

/-! ### The update -/

/-- Settles O37: this is `read_updateCells`. -/
theorem updateTakesMaximum : Obligations.UpdateTakesMaximum :=
  fun _ h b j hm _ _ => read_updateCells hm h b j

/-- A cell that has reached the rank is left alone. -/
theorem updateCells_of_rank_le {m : List Host.Cell} {h : Word} {b : BitVec 5}
    (hr : rank h b ≤ (Memory.read m (regIndex h b)).toNat) : updateCells m h b = m :=
  if_neg (not_lt.mpr hr)

section Adds

variable {b : BitVec 5} {m : List Host.Cell}

/-- At a legal precision an add keeps the canonical form. -/
theorem wf_addItem (hb : b.toNat ≤ 16) (hm : Memory.wf m = true) (seed : Word) (x : List Byte) :
    Memory.wf (addItem seed b m x) = true :=
  wf_updateCells hm ((regIndex_lt _ b).trans_le (two_pow_le_physCells hb))

/-- The ranks of the items whose index is `j`, in the order of the items. -/
def ranksAt (seed : Word) (b : BitVec 5) (j : Nat) (items : List (List Byte)) : List Nat :=
  (items.filter fun x => regIndex (hash32 seed x) b = j).map fun x => rank (hash32 seed x) b

/-- After any adds each cell is the maximum of its old value and the ranks that fall on it. -/
theorem read_foldl_addItem (hb : b.toNat ≤ 16) (hm : Memory.wf m = true) (seed : Word) (items : List (List Byte)) (j : Nat) :
    (Memory.read (items.foldl (addItem seed b) m) j).toNat =
      (ranksAt seed b j items).foldl max (Memory.read m j).toNat := by
  induction items generalizing m with
  | nil => rfl
  | cons x items ih =>
    rw [List.foldl_cons, ih (wf_addItem hb hm seed x), addItem, read_updateCells hm]
    by_cases hj : j = regIndex (hash32 seed x) b
    · simp [ranksAt, hj]
    · simp [ranksAt, hj, Ne.symm hj]

/-- No add lowers a cell (R32). -/
theorem read_le_read_foldl_addItem (hb : b.toNat ≤ 16) (hm : Memory.wf m = true) (seed : Word) (items : List (List Byte))
    (j : Nat) : (Memory.read m j).toNat ≤ (Memory.read (items.foldl (addItem seed b) m) j).toNat := by
  rw [read_foldl_addItem hb hm, List.foldl_max]
  exact le_max_left _ _

/-- The cell of an added item has reached the item's rank, and keeps it through the later adds. -/
theorem rank_le_read_foldl_addItem (hb : b.toNat ≤ 16) (hm : Memory.wf m = true) (seed : Word) {items : List (List Byte)}
    {x : List Byte} (hx : x ∈ items) :
    rank (hash32 seed x) b ≤
      (Memory.read (items.foldl (addItem seed b) m) (regIndex (hash32 seed x) b)).toNat := by
  induction items generalizing m with
  | nil => cases hx
  | cons y items ih =>
    have hwf := wf_addItem hb hm seed y
    rcases List.mem_cons.mp hx with rfl | hx
    · refine le_trans ?_ (read_le_read_foldl_addItem hb hwf seed items _)
      rw [addItem, read_updateCells hm, if_pos rfl]
      exact le_max_right _ _
    · exact ih hwf hx

end Adds

/-- Settles O39: the item's cell has already reached its rank. -/
theorem duplicateAddChangesNothing : Obligations.DuplicateAddChangesNothing :=
  fun seed _ _ _ _ hm _ hb hx => updateCells_of_rank_le (rank_le_read_foldl_addItem hb hm seed hx)

/-- Settles O40: `read_foldl_addItem` from a cell that holds 0. -/
theorem finalCellsAreMaxima : Obligations.FinalCellsAreMaxima := by
  intro seed b m items j hm _ hb hzero hj
  rw [read_foldl_addItem hb hm, hzero j hj]
  rfl

end Sys2Proof.Machine
end

section
/-! SUPPORT. The register file's commands (41_estimator_regfile.md R133 to R139): what each answers in its phase, before a CONFIG
and out of its phase. -/

namespace Sys2Proof.Machine

/-! ### Commands that read or open -/

/-- Settles O29: the effect is `State.openMessage`, which reads ESEED and leaves TAIL. -/
theorem abeginOpensAddMessage : Obligations.AbeginOpensAddMessage :=
  ⟨decodesN_abegin, fun _ => whenConfigured_pos, fun _ => whenConfigured_busy, fun _ => whenConfigured_unset⟩

/-- Settles O32: the state that is answered from is the state itself. -/
theorem getmAnswersRegisterCount : Obligations.GetmAnswersRegisterCount :=
  ⟨decodesN_getm, fun _ => whenConfigured_pos, fun _ => whenConfigured_busy, fun _ => whenConfigured_unset⟩

/-- Settles O33: the five bits of B, zero-extended, are its value. -/
theorem getbAnswersPrecision : Obligations.GetbAnswersPrecision := by
  refine ⟨decodesN_getb, fun s hm hc => ?_, fun _ => whenConfigured_busy, fun _ => whenConfigured_unset⟩
  rw [BitVec.ofNat_toNat]
  exact whenConfigured_pos hm hc

/-- Settles O34: an index below m passes the check and, with B at most 16, names a physical cell. -/
theorem rdregAnswersOneCell : Obligations.RdregAnswersOneCell := by
  refine ⟨decodesA_rdreg, fun i s hm hc hb hi => ?_, fun _ _ => whenConfigured_busy, fun _ _ => whenConfigured_unset,
    fun i s hm hc hi => (whenConfigured_pos hm hc).trans (whenIndex_neg hi)⟩
  have hcell : i.toNat + 1 ≤ physCells := hi.trans_le (two_pow_le_physCells hb)
  exact (whenConfigured_pos hm hc).trans ((whenIndex_pos hi).trans (withCells_pos hcell))

/-! ### Commands that write cells -/

/-- Settles O28: the effect is `State.construct`, whose cells `Memory.read_zeroBelow` reads. -/
theorem configConstructsEstimator : Obligations.ConfigConstructsEstimator :=
  ⟨decodesXA_config,
    fun b seed s hm h4 h16 => ⟨(s.construct b seed).answer okZero,
      (whenIdle_pos hm).trans (whenPrecision_pos h4 h16), rfl, toNat_setWidth_five h16,
      Memory.read_zeroBelow s.m (2 ^ b.toNat)⟩,
    fun _ _ _ => whenIdle_neg,
    fun _ _ _ hm hb => (whenIdle_pos hm).trans (whenPrecision_neg hb)⟩

/-- Settles O30: the effect is the update by `State.finalize` and then `State.closeMessage`. -/
theorem aendUpdatesOneCell : Obligations.AendUpdatesOneCell :=
  ⟨decodesN_aend,
    fun s hs hm => ⟨({ s with m := updateCells s.m s.finalize s.b }.closeMessage).answer okZero,
      (whenPhase_pos hm).trans (withCells_pos (hs.regIndex_lt_physCells (hs.adding hm) _)), rfl,
      read_updateCells hs.cells s.finalize s.b⟩,
    fun _ => whenPhase_neg⟩

/-- Settles O31: with B at most 16 every register is a physical cell, and `Memory.read_zeroBelow` reads them. -/
theorem clearZeroesRegisters : Obligations.ClearZeroesRegisters :=
  ⟨decodesN_clear,
    fun s hm hc hb => ⟨{ s with m := Memory.zeroBelow s.m s.regCount }.answer okZero,
      (whenConfigured_pos hm hc).trans (withCells_pos (n := s.regCount) (two_pow_le_physCells hb)), rfl,
      Memory.read_zeroBelow s.m (2 ^ s.b.toNat)⟩,
    fun _ => whenConfigured_busy, fun _ => whenConfigured_unset⟩

end Sys2Proof.Machine
end

section
/-! SUPPORT. Which commands write which state element (10_state.md R20, 41_estimator_regfile.md R143): a refused command writes none
of them, so everything is said of the effect of a command that is carried out. -/

namespace Sys2Proof.Machine

/-- What one byte leaves unchanged, every push leaves unchanged. -/
theorem foldl_absorb_keeps {α : Type} {f : State → α} (h : ∀ s byte, f (s.absorb byte) = f s) (bytes : List Byte)
    (s : State) : f (bytes.foldl State.absorb s) = f s := by
  induction bytes generalizing s with
  | nil => rfl
  | cons byte bytes ih => rw [List.foldl_cons, ih, h]

section Writers

variable {i : Instr} {s : State}

/-- HSEED is written by SETSEED (R21). -/
theorem writer_of_hseed (h : (effectOf i s).hseed ≠ s.hseed) : ∃ seed, i = .setseed seed := by
  cases i with
  | setseed seed => exact ⟨seed, rfl⟩
  | pushb byte => exact absurd (s.absorb_hseed byte) h
  | pushw w => exact absurd (foldl_absorb_keeps State.absorb_hseed _ s) h
  | _ => exact absurd rfl h

/-- ESEED, B and CFGV are written by CONFIG alone (R22, R23, R24). -/
theorem writer_of_estimator
    (h : (effectOf i s).eseed ≠ s.eseed ∨ (effectOf i s).b ≠ s.b ∨ (effectOf i s).cfgv ≠ s.cfgv) :
    ∃ b seed, i = .config b seed := by
  cases i with
  | config b seed => exact ⟨b, seed, rfl⟩
  | pushb byte => simp [effectOf] at h
  | pushw w =>
    simp [effectOf, foldl_absorb_keeps State.absorb_eseed, foldl_absorb_keeps State.absorb_cfgv] at h
  | _ => simp [effectOf] at h

/-- M is written by AEND, CLEAR and CONFIG (R25). -/
theorem writer_of_m (h : (effectOf i s).m ≠ s.m) : i = .aend ∨ i = .clear ∨ ∃ b seed, i = .config b seed := by
  cases i with
  | aend => exact .inl rfl
  | clear => exact .inr (.inl rfl)
  | config b seed => exact .inr (.inr ⟨b, seed, rfl⟩)
  | pushb byte => exact absurd (s.absorb_m byte) h
  | pushw w => exact absurd (foldl_absorb_m _ s) h
  | _ => exact absurd rfl h

/-- MODE is written by the commands that open a message and those that close one (R26). -/
theorem writer_of_mode (h : (effectOf i s).mode ≠ s.mode) :
    i = .hbegin ∨ i = .abegin ∨ i = .hend ∨ i = .aend ∨ i = .mabort := by
  cases i with
  | hbegin | abegin | hend | aend | mabort => simp
  | pushb byte => exact absurd (s.absorb_mode byte) h
  | pushw w => exact absurd (foldl_absorb_mode _ s) h
  | _ => exact absurd rfl h

/-- The working registers are written by the commands that open, extend or close a message (R27, R28, R29). -/
theorem writer_of_working
    (h : (effectOf i s).h1 ≠ s.h1 ∨ (effectOf i s).tail0 ≠ s.tail0 ∨ (effectOf i s).tail1 ≠ s.tail1 ∨
      (effectOf i s).tail2 ≠ s.tail2 ∨ (effectOf i s).tcnt ≠ s.tcnt ∨ (effectOf i s).len ≠ s.len) :
    i = .hbegin ∨ i = .abegin ∨ (∃ byte, i = .pushb byte) ∨ (∃ w, i = .pushw w) ∨ i = .hend ∨ i = .aend ∨
      i = .mabort := by
  cases i with
  | hbegin | abegin | pushb | pushw | hend | aend | mabort => simp
  | _ => simp [effectOf] at h

/-- No command ends a configuration: only CONFIG writes CFGV, and it writes 1. -/
theorem cfgv_of_effectOf (h : (effectOf i s).cfgv = false) : s.cfgv = false := by
  by_cases hc : (effectOf i s).cfgv = s.cfgv
  · exact hc ▸ h
  · obtain ⟨b, seed, rfl⟩ := writer_of_estimator (.inr (.inr hc))
    cases h

end Writers

/-- Settles O55: a response is none of these elements, and each has its own lemma for the effect. -/
theorem elementsChangeOnlyByTheirWriters : Obligations.ElementsChangeOnlyByTheirWriters := by
  intro i s t h
  rcases exec_next h with ⟨st, -, rfl⟩ | ⟨-, -, -, d, rfl⟩
  · simp
  · exact ⟨writer_of_hseed, writer_of_estimator, writer_of_m, writer_of_mode, writer_of_working, cfgv_of_effectOf⟩

end Sys2Proof.Machine
end

section
/-! SUPPORT. The register statistics (42_estimate.md R161): V and ZI, which the model computes from the listed cells, are the
count and the sum over all cells below m, and what ESTIMATE answers is a function of them. -/

namespace Sys2Proof.Machine

/-! ### Sums over the cells below a bound -/

/-- Listing one more cell above which all others lie replaces, in a sum over the cells below `n`, its 0 by its entry. -/
theorem sum_read_cons {c : Host.Cell} {rest : List Host.Cell} (habove : ∀ d ∈ rest, c.1 < d.1) {n : Nat}
    (hc : c.1 < n) (g : Byte → Nat) :
    ∑ j ∈ Finset.range n, g (Memory.read (c :: rest) j) + g 0 =
      ∑ j ∈ Finset.range n, g (Memory.read rest j) + g c.2 := by
  have hmem := Finset.mem_range.mpr hc
  have hsame : ∀ j ∈ (Finset.range n).erase c.1, g (Memory.read (c :: rest) j) = g (Memory.read rest j) := by
    intro j hj
    rw [Memory.read, if_neg (Finset.ne_of_mem_erase hj).symm]
  rw [← Finset.add_sum_erase _ _ hmem, ← Finset.add_sum_erase _ (fun j => g (Memory.read rest j)) hmem,
    Finset.sum_congr rfl hsame, Memory.read_eq_zero_of_below habove, Memory.read, if_pos rfl]
  omega

/-- A sum over all cells below `n` is a sum over the listed ones, with the value at 0 for every other cell (log entry 11). -/
theorem sum_read_eq {m : List Host.Cell} (hm : Memory.wf m = true) (n : Nat) (g : Byte → Nat) :
    ∑ j ∈ Finset.range n, g (Memory.read m j) + (m.filter fun c => c.1 < n).length * g 0 =
      n * g 0 + ((m.filter fun c => c.1 < n).map fun c => g c.2).sum := by
  induction m with
  | nil => simp
  | cons c rest ih =>
    obtain ⟨-, -, habove, hrest⟩ := Memory.wf_cons.mp hm
    by_cases hc : c.1 < n
    · have hcons := sum_read_cons habove hc g
      have hih := ih hrest
      simp only [List.filter_cons, hc, decide_true, if_true, List.length_cons, List.map_cons, List.sum_cons,
        Nat.succ_mul]
      omega
    · have hsame : ∀ j ∈ Finset.range n, g (Memory.read (c :: rest) j) = g (Memory.read rest j) := by
        intro j hj
        rw [Memory.read, if_neg fun h : c.1 = j => hc (h ▸ Finset.mem_range.mp hj)]
      rw [Finset.sum_congr rfl hsame, List.filter_cons_of_neg (by simpa using hc)]
      exact ih hrest

/-! ### V and ZI -/

/-- No listed cell holds 0. -/
theorem Memory.entry_ne_zero {m : List Host.Cell} (hm : Memory.wf m = true) {c : Host.Cell} (hc : c ∈ m) :
    c.2 ≠ 0 := by
  induction m with
  | nil => cases hc
  | cons d rest ih =>
    obtain ⟨-, hd, -, hrest⟩ := Memory.wf_cons.mp hm
    rcases List.mem_cons.mp hc with rfl | hc
    · exact hd
    · exact ih hrest hc

theorem zeroCells_eq_sum (s : State) :
    zeroCells s = ∑ j ∈ Finset.range s.regCount, if Memory.read s.m j = 0 then 1 else 0 := by
  rw [← Finset.card_filter]
  rfl

theorem cellSum_eq_sum (s : State) :
    cellSum s = ∑ j ∈ Finset.range s.regCount, 2 ^ (29 - (Memory.read s.m j).toNat) := rfl

/-- The cells below m are the listed ones and the zero ones. -/
theorem zeroCells_add_length_liveCells {s : State} (hm : Memory.wf s.m = true) :
    zeroCells s + s.liveCells.length = s.regCount := by
  have hlive : (s.liveCells.map fun c => if c.2 = 0 then 1 else 0).sum = 0 := by
    refine List.sum_eq_zero fun x hx => ?_
    obtain ⟨c, hc, rfl⟩ := List.mem_map.mp hx
    exact if_neg (Memory.entry_ne_zero hm (List.mem_of_mem_filter hc))
  have h := sum_read_eq hm s.regCount fun x => if x = 0 then 1 else 0
  rw [← zeroCells_eq_sum] at h
  simpa [State.liveCells] using h.trans (congrArg _ hlive)

/-- V is the number of zero cells below m. -/
theorem zeroCount_eq_zeroCells {s : State} (hm : Memory.wf s.m = true) : s.zeroCount = zeroCells s := by
  have := zeroCells_add_length_liveCells hm
  unfold State.zeroCount
  omega

/-- ZI is the sum over the cells below m. -/
theorem scaledSum_eq_cellSum {s : State} (hm : Memory.wf s.m = true) : s.scaledSum = cellSum s := by
  have hsum : cellSum s + s.liveCells.length * 2 ^ 29 =
      s.regCount * 2 ^ 29 + (s.liveCells.map fun c => 2 ^ (29 - c.2.toNat)).sum := by
    rw [cellSum_eq_sum]
    exact sum_read_eq hm s.regCount fun x => 2 ^ (29 - x.toNat)
  have hcount := zeroCells_add_length_liveCells hm
  rw [State.scaledSum, zeroCount_eq_zeroCells hm]
  omega

theorem zeroCells_le (s : State) : zeroCells s ≤ 2 ^ s.b.toNat :=
  (List.length_filter_le _ _).trans (List.length_range).le

/-- Every cell adds at most `2^29` to ZI. -/
theorem cellSum_le (s : State) : cellSum s ≤ 2 ^ s.b.toNat * 2 ^ 29 := by
  have h := Finset.sum_le_card_nsmul (Finset.range s.regCount) (fun j => 2 ^ (29 - (Memory.read s.m j).toNat)) (2 ^ 29)
    fun j _ => Nat.pow_le_pow_right two_pos (Nat.sub_le _ _)
  rwa [Finset.card_range, smul_eq_mul] at h

/-- Every cell adds at least 1 to ZI. -/
theorem regCount_le_cellSum (s : State) : s.regCount ≤ cellSum s := by
  have h := Finset.card_nsmul_le_sum (Finset.range s.regCount) (fun j => 2 ^ (29 - (Memory.read s.m j).toNat)) 1
    fun j _ => Nat.one_le_two_pow
  rwa [Finset.card_range, smul_eq_mul, mul_one] at h

/-- Every cell adds at least `2^(29 - (33 - B))` to ZI (I-1, I-2). -/
theorem le_two_pow_mul_cellSum {s : State} (h : Invariants s) (hc : s.cfgv = true) :
    2 ^ s.b.toNat * 2 ^ 29 ≤ 2 ^ (33 - s.b.toNat) * cellSum s := by
  have hcell : ∀ j ∈ Finset.range s.regCount,
      2 ^ 29 ≤ 2 ^ (33 - s.b.toNat) * 2 ^ (29 - (Memory.read s.m j).toNat) := by
    intro j hj
    have := h.ranks hc j (Finset.mem_range.mp hj)
    rw [← pow_add]
    exact Nat.pow_le_pow_right two_pos (by omega)
  have hsum := Finset.card_nsmul_le_sum _ _ _ hcell
  rwa [Finset.card_range, smul_eq_mul, ← Finset.mul_sum] at hsum

/-- A zero cell adds `2^29` to ZI. -/
theorem zeroCells_mul_le_cellSum {s : State} (hm : Memory.wf s.m = true) : zeroCells s * 2 ^ 29 ≤ cellSum s := by
  rw [← scaledSum_eq_cellSum hm, State.scaledSum, zeroCount_eq_zeroCells hm, mul_comm]
  exact Nat.le_add_right _ _

/-- The statistics of a configured state are those of a legal register file (R161). -/
theorem Invariants.legalStats {s : State} (h : Invariants s) (hc : s.cfgv = true) :
    legalStats s.b.toNat (zeroCells s) (cellSum s) :=
  ⟨(h.precision hc).1, (h.precision hc).2, zeroCells_le s, zeroCells_mul_le_cellSum h.cells, cellSum_le s,
    (Nat.two_pow_pos _).trans_le (regCount_le_cellSum s)⟩

/-! ### ESTIMATE -/

section Answers

variable {s : State} (h : Invariants s) (hm : s.mode = .idle) (hc : s.cfgv = true)

include h hm hc

/-- Where EST has a value, ESTIMATE answers it. -/
theorem exec_estimate_of_some {r : Data} (hr : estF64 ln s.b.toNat (zeroCells s) (cellSum s) = some r) :
    exec .estimate s = .next (s.only .ok r) := by
  rw [← est_eq_estF64, ← zeroCount_eq_zeroCells h.cells, ← scaledSum_eq_cellSum h.cells] at hr
  rw [exec_of_admitted (i := .estimate) h (beq_iff_eq.mpr hm) fun _ => hc,
    admittedOutcome_of_none (by simp [ownCheck, hr]), resultOf, hr]
  rfl

/-- Where EST has no value, ESTIMATE answers RANGE. -/
theorem exec_estimate_of_none (hr : estF64 ln s.b.toNat (zeroCells s) (cellSum s) = none) :
    exec .estimate s = .next (s.only .range 0) := by
  rw [← est_eq_estF64, ← zeroCount_eq_zeroCells h.cells, ← scaledSum_eq_cellSum h.cells] at hr
  rw [exec_of_admitted (i := .estimate) h (beq_iff_eq.mpr hm) fun _ => hc, admittedOutcome_of_some (i := .estimate) (if_pos hr)]
  rfl

end Answers

/-- Settles O42: the statistics of the listed cells are those of all cells, and `est` is EST_F64 with the open LN. -/
theorem estimateAnswersEst : Obligations.EstimateAnswersEst :=
  ⟨decodesN_estimate, fun _ _ h hm hc => exec_estimate_of_some h hm hc, fun _ h hm hc => exec_estimate_of_none h hm hc,
    fun _ => whenConfigured_busy, fun _ => whenConfigured_unset⟩

/-- Settles O41: the bounds hold cell by cell, and equal statistics give equal values of EST. -/
theorem statisticsCountCells : Obligations.StatisticsCountCells := by
  refine ⟨fun s h hc => ?_, fun s t hs ht hsm htm hsc htc hb hv hzi => ?_⟩
  · obtain ⟨hb4, hb16⟩ := h.precision hc
    have hcount : 16 ≤ s.regCount := Nat.pow_le_pow_right (n := 2) two_pos hb4
    have hmax : 2 ^ s.b.toNat * 2 ^ 29 ≤ 2 ^ 45 :=
      Nat.mul_le_mul_right (2 ^ 29) (Nat.pow_le_pow_right two_pos hb16)
    exact ⟨zeroCount_eq_zeroCells h.cells, scaledSum_eq_cellSum h.cells, zeroCells_le s, le_two_pow_mul_cellSum h hc,
      cellSum_le s, hcount.trans (regCount_le_cellSum s), (cellSum_le s).trans hmax, zeroCells_mul_le_cellSum h.cells⟩
  · have heq : estF64 ln t.b.toNat (zeroCells t) (cellSum t) = estF64 ln s.b.toNat (zeroCells s) (cellSum s) := by
      rw [hb, hv, hzi]
    cases hr : estF64 ln s.b.toNat (zeroCells s) (cellSum s) with
    | some r => exact ⟨.ok, r, exec_estimate_of_some hs hsm hsc hr, exec_estimate_of_some ht htm htc (heq.trans hr)⟩
    | none => exact ⟨.range, 0, exec_estimate_of_none hs hsm hsc hr, exec_estimate_of_none ht htm htc (heq.trans hr)⟩

end Sys2Proof.Machine
end

section
/-! SUPPORT. Binary64 values and the error of one rounding (42_estimate.md R168): a value is a multiple of its own unit in the
last place, rounding leaves it and scaling by a power of two keeps it, and rounding any other number moves it by at most one part
in 2^53. -/

namespace Sys2Proof.Machine

/-! ### Units in the last place -/

theorem ulp_mul_two_pow (q : ℚ) : ulp q * 2 ^ 52 = twoPow (binade q) := by
  rw [ulp, ← zpow_natCast, ← twoPow_eq_zpow, ← twoPow_add]
  norm_num

/-- A non-zero number is at least `2^52` of its units. -/
theorem ulp_mul_le_abs {q : ℚ} (hq : q ≠ 0) : ulp q * 2 ^ 52 ≤ |q| :=
  (ulp_mul_two_pow q).trans_le (binade_spec hq).1

/-- A non-zero number is less than `2^53` of its units. -/
theorem abs_lt_ulp_mul {q : ℚ} (hq : q ≠ 0) : |q| < ulp q * 2 ^ 53 := by
  have h := (binade_spec hq).2
  rw [twoPow_add, ← ulp_mul_two_pow, twoPow_eq_zpow 1] at h
  linarith

/-- A number that reaches a binade lies in it or above it, and has no smaller unit. -/
theorem binade_le_of_twoPow_le {e : ℤ} {p : ℚ} (h : twoPow e ≤ |p|) : e ≤ binade p := by
  have hp : p ≠ 0 := abs_pos.mp ((twoPow_pos e).trans_le h)
  exact Int.lt_add_one_iff.mp (twoPow_lt_iff.mp (h.trans_lt (binade_spec hp).2))

theorem ulp_le_ulp_of_twoPow_le {q p : ℚ} (h : twoPow (binade q) ≤ |p|) : ulp q ≤ ulp p :=
  twoPow_le (Int.sub_le_sub_right (binade_le_of_twoPow_le h) 52)

/-- Scaling by a power of two scales the unit. -/
theorem ulp_mul_twoPow {q : ℚ} (hq : q ≠ 0) (e : ℤ) : ulp (q * twoPow e) = ulp q * twoPow e := by
  obtain ⟨hlo, hhi⟩ := binade_spec hq
  have he := twoPow_pos e
  have hb : binade (q * twoPow e) = binade q + e := by
    apply binade_unique
    · rw [abs_mul, abs_of_pos he, twoPow_add]
      gcongr
    · rw [abs_mul, abs_of_pos he, add_right_comm, twoPow_add _ e]
      gcongr
  rw [ulp, hb, add_sub_right_comm, twoPow_add, ulp]

/-- A power of two is a multiple of every smaller one. -/
theorem exists_twoPow_eq_mul {e f : ℤ} (h : e ≤ f) : ∃ n : ℤ, twoPow f = n * twoPow e := by
  obtain ⟨k, hk⟩ := Int.le.dest h
  refine ⟨2 ^ k, ?_⟩
  rw [← hk, twoPow_add, twoPow_eq_zpow k]
  push_cast
  rw [zpow_natCast, mul_comm]

/-! ### Binary64 values -/

/-- A binary64 value: a multiple of its own unit in the last place (log entry 8). -/
def IsF64 (q : ℚ) : Prop := ∃ n : ℤ, q = n * ulp q

/-- Integers of at most 53 bits, and `2^53`, are significands. -/
theorem isF64_of_abs_le {n : ℤ} (hn : |n| ≤ 2 ^ 53) (e : ℤ) : IsF64 (n * twoPow e) := by
  rcases eq_or_ne n 0 with rfl | hn0
  · exact ⟨0, by simp⟩
  have hmag : |(n : ℚ) * twoPow e| = |(n : ℚ)| * twoPow e := by rw [abs_mul, abs_of_pos (twoPow_pos e)]
  have hn' : |(n : ℚ)| ≤ 2 ^ 53 := by exact_mod_cast hn
  rcases le_or_gt (binade (n * twoPow e) - 52) e with h | h
  · obtain ⟨k, hk⟩ := exists_twoPow_eq_mul h
    exact ⟨n * k, by rw [ulp, Int.cast_mul, mul_assoc, ← hk]⟩
  · -- only `±2^53` lies so high, and it is `±2^52` units of the next binade
    have hq : (n : ℚ) * twoPow e ≠ 0 := mul_ne_zero (Int.cast_ne_zero.mpr hn0) (twoPow_pos e).ne'
    have hlo := (binade_spec hq).1
    have hge : 2 ^ 53 * twoPow e ≤ twoPow (binade (n * twoPow e)) := by
      rw [← zpow_natCast, ← twoPow_eq_zpow, ← twoPow_add]
      exact twoPow_le (by push_cast; omega)
    have hmax : |(n : ℚ) * twoPow e| = twoPow (binade (n * twoPow e)) := by
      refine le_antisymm (le_trans ?_ hge) hlo
      rw [hmag]
      exact mul_le_mul_of_nonneg_right hn' (twoPow_pos e).le
    rw [← ulp_mul_two_pow] at hmax
    rcases abs_choice ((n : ℚ) * twoPow e) with hs | hs
    · exact ⟨2 ^ 52, by push_cast; linarith⟩
    · exact ⟨-2 ^ 52, by push_cast; linarith⟩

/-- What rounding answers is a binary64 value. -/
theorem isF64_round64 (q : ℚ) : IsF64 (round64 q) := by
  rcases eq_or_ne q 0 with rfl | hq
  · exact ⟨0, by simp [round64]⟩
  have hdiv : |q / ulp q| < 2 ^ 53 := by
    rw [abs_div, abs_of_pos (ulp_pos q), div_lt_iff₀ (ulp_pos q), mul_comm]
    exact abs_lt_ulp_mul hq
  have hround := roundHalfEven_spec (q / ulp q)
  have hlt : |roundHalfEven (q / ulp q)| < 2 ^ 53 + 1 := by
    rw [← Int.cast_lt (R := ℚ)]
    push_cast
    linarith [abs_sub_abs_le_abs_sub (roundHalfEven (q / ulp q) : ℚ) (q / ulp q)]
  rw [round64, if_neg hq, Rat.mkRat_eq_div, Nat.cast_one, div_one, ulp]
  exact isF64_of_abs_le (Int.lt_add_one_iff.mp hlt) _

theorem roundHalfEven_intCast (n : ℤ) : roundHalfEven n = n := by
  simp [roundHalfEven, ratFloor_eq, Rat.mkRat_eq_div]

/-- Rounding leaves a binary64 value. -/
theorem IsF64.round64_eq {q : ℚ} (h : IsF64 q) : round64 q = q := by
  obtain ⟨n, hn⟩ := h
  rcases eq_or_ne q 0 with rfl | hq
  · rfl
  have hdiv : q / ulp q = n := (div_eq_iff (ulp_pos q).ne').mpr hn
  rw [round64, if_neg hq, hdiv, roundHalfEven_intCast, Rat.mkRat_eq_div, Nat.cast_one, div_one, ← hn]

/-- Scaling by a power of two is exact (R170). -/
theorem IsF64.mul_twoPow {q : ℚ} (h : IsF64 q) (e : ℤ) : IsF64 (q * twoPow e) := by
  rcases eq_or_ne q 0 with rfl | hq
  · exact ⟨0, by simp⟩
  obtain ⟨n, hn⟩ := h
  exact ⟨n, by rw [ulp_mul_twoPow hq, ← mul_assoc, ← hn]⟩

/-- A binary64 value that reaches a binade is a multiple of that binade's unit. -/
theorem IsF64.exists_eq_mul {q : ℚ} (h : IsF64 q) {e : ℤ} (he : twoPow e ≤ |q|) :
    ∃ n : ℤ, q = n * twoPow (e - 52) := by
  obtain ⟨n, hn⟩ := h
  obtain ⟨k, hk⟩ := exists_twoPow_eq_mul (Int.sub_le_sub_right (binade_le_of_twoPow_le he) 52)
  exact ⟨n * k, by rw [Int.cast_mul, mul_assoc, ← hk, ← ulp, ← hn]⟩

/-! ### The error of a rounding -/

/-- Rounding moves a number by at most one part in `2^53`. -/
theorem abs_round64_sub_le (q : ℚ) : |round64 q - q| ≤ |q| / 2 ^ 53 := by
  rcases eq_or_ne q 0 with rfl | hq
  · simp [round64]
  · have h := round64_spec q
    have hu := ulp_mul_le_abs hq
    linarith

theorem round64_pos {q : ℚ} (h : 0 < q) : 0 < round64 q := by
  have hr := (abs_le.mp (abs_round64_sub_le q)).1
  rw [abs_of_pos h] at hr
  linarith

theorem round64_nonpos {q : ℚ} (h : q ≤ 0) : round64 q ≤ 0 := by
  have hr := (abs_le.mp (abs_round64_sub_le q)).2
  rw [abs_of_nonpos h] at hr
  linarith

/-! ### Several roundings

Two positive reals stand in `Within n` if each is at least the other times `roundLoss^n`. Products, quotients and sums of such
pairs are such pairs again, and a rounding adds one to `n`. -/

/-- What a rounding leaves of a number at least: `1 - 2^-53`. -/
noncomputable def roundLoss : ℝ := 1 - 1 / 2 ^ 53

theorem roundLoss_pos : 0 < roundLoss := by
  norm_num [roundLoss]

theorem roundLoss_le_one : roundLoss ≤ 1 := by
  norm_num [roundLoss]

/-- The positive reals `x` and `y` are no more than `n` roundings apart. -/
structure Within (n : ℕ) (x y : ℝ) : Prop where
  left_pos : 0 < x
  right_pos : 0 < y
  lower : y * roundLoss ^ n ≤ x
  upper : x * roundLoss ^ n ≤ y

namespace Within

variable {n m : ℕ} {x y z w : ℝ}

theorem refl (h : 0 < x) : Within 0 x x :=
  ⟨h, h, by simp, by simp⟩

theorem of_eq (hy : 0 < y) (h : x = y) : Within 0 x y :=
  h ▸ refl (h ▸ hy)

theorem symm (h : Within n x y) : Within n y x :=
  ⟨h.right_pos, h.left_pos, h.upper, h.lower⟩

theorem trans (h : Within n x y) (h' : Within m y z) : Within (n + m) x z where
  left_pos := h.left_pos
  right_pos := h'.right_pos
  lower := by
    rw [add_comm, pow_add, ← mul_assoc]
    exact (mul_le_mul_of_nonneg_right h'.lower (pow_pos roundLoss_pos n).le).trans h.lower
  upper := by
    rw [pow_add, ← mul_assoc]
    exact (mul_le_mul_of_nonneg_right h.upper (pow_pos roundLoss_pos m).le).trans h'.upper

theorem mono (h : Within n x y) (hnm : n ≤ m) : Within m x y := by
  have hpow : roundLoss ^ m ≤ roundLoss ^ n := pow_le_pow_of_le_one roundLoss_pos.le roundLoss_le_one hnm
  exact ⟨h.left_pos, h.right_pos, (mul_le_mul_of_nonneg_left hpow h.right_pos.le).trans h.lower,
    (mul_le_mul_of_nonneg_left hpow h.left_pos.le).trans h.upper⟩

theorem inv (h : Within n x y) : Within n x⁻¹ y⁻¹ := by
  have hx := h.left_pos
  have hy := h.right_pos
  refine ⟨inv_pos.mpr hx, inv_pos.mpr hy, ?_, ?_⟩
  · rw [inv_mul_le_iff₀ hy, ← div_eq_mul_inv, le_div_iff₀ hx, mul_comm]
    exact h.upper
  · rw [inv_mul_le_iff₀ hx, ← div_eq_mul_inv, le_div_iff₀ hy, mul_comm]
    exact h.lower

theorem mul (h : Within n x y) (h' : Within m z w) : Within (n + m) (x * z) (y * w) where
  left_pos := mul_pos h.left_pos h'.left_pos
  right_pos := mul_pos h.right_pos h'.right_pos
  lower := by
    rw [pow_add, mul_mul_mul_comm]
    exact mul_le_mul h.lower h'.lower (mul_pos h'.right_pos (pow_pos roundLoss_pos m)).le h.left_pos.le
  upper := by
    rw [pow_add, mul_mul_mul_comm]
    exact mul_le_mul h.upper h'.upper (mul_pos h'.left_pos (pow_pos roundLoss_pos m)).le h.right_pos.le

theorem div (h : Within n x y) (h' : Within m z w) : Within (n + m) (x / z) (y / w) := by
  simpa only [div_eq_mul_inv] using h.mul h'.inv

theorem add (h : Within n x y) (h' : Within n z w) : Within n (x + z) (y + w) :=
  ⟨add_pos h.left_pos h'.left_pos, add_pos h.right_pos h'.right_pos, by linarith [h.lower, h'.lower],
    by linarith [h.upper, h'.upper]⟩

end Within

/-- A rounding is one rounding. -/
theorem within_round64 {q : ℚ} (h : 0 < q) : Within 1 (round64 q : ℝ) q := by
  have hr := abs_le.mp (abs_round64_sub_le q)
  rw [abs_of_pos h] at hr
  have hq : (0 : ℝ) < q := by exact_mod_cast h
  have hlo : -((q : ℝ) / 2 ^ 53) ≤ round64 q - q := by exact_mod_cast hr.1
  have hhi : (round64 q : ℝ) - q ≤ q / 2 ^ 53 := by exact_mod_cast hr.2
  refine ⟨by exact_mod_cast round64_pos h, hq, ?_, ?_⟩
  · rw [pow_one, roundLoss]
    linarith
  · rw [pow_one, roundLoss]
    linarith

namespace Within

variable {n m : ℕ} {x y : ℚ} {z w : ℝ}

theorem round64 (h : Within n x z) : Within (n + 1) (round64 x) z :=
  add_comm 1 n ▸ (within_round64 (by exact_mod_cast h.left_pos)).trans h

theorem fmul (h : Within n x z) (h' : Within m y w) : Within (n + m + 1) (fmul x y) (z * w) :=
  round64 (by push_cast; exact h.mul h')

theorem fdiv (h : Within n x z) (h' : Within m y w) : Within (n + m + 1) (fdiv x y) (z / w) :=
  round64 (by push_cast; exact h.div h')

theorem fadd (h : Within n x z) (h' : Within n y w) : Within (n + 1) (fadd x y) (z + w) :=
  round64 (by push_cast; exact h.add h')

end Within

/-! ### What a bounded number of roundings can do -/

/-- Thirty-two roundings leave all but one part in `2^48`. -/
theorem le_roundLoss_pow {n : ℕ} (hn : n ≤ 32) : 1 - 1 / 2 ^ 48 ≤ roundLoss ^ n :=
  calc (1 - 1 / 2 ^ 48 : ℝ) = 1 + (32 : ℕ) * (-(1 / 2 ^ 53)) := by norm_num
    _ ≤ (1 + -(1 / 2 ^ 53)) ^ 32 := one_add_mul_le_pow (by norm_num) 32
    _ = roundLoss ^ 32 := by rw [roundLoss, sub_eq_add_neg]
    _ ≤ roundLoss ^ n := pow_le_pow_of_le_one roundLoss_pos.le roundLoss_le_one hn

namespace Within

variable {n m : ℕ} {x y c d : ℝ}

theorem le_left (h : Within n x y) (hn : n ≤ 32) : y * (1 - 1 / 2 ^ 48) ≤ x :=
  (mul_le_mul_of_nonneg_left (le_roundLoss_pow hn) h.right_pos.le).trans h.lower

theorem le_right (h : Within n x y) (hn : n ≤ 32) : x * (1 - 1 / 2 ^ 48) ≤ y :=
  h.symm.le_left hn

theorem abs_sub_le (h : Within n x y) (hn : n ≤ 32) : |x - y| ≤ y / 2 ^ 47 := by
  have hlo := h.le_left hn
  have hhi := h.le_right hn
  rw [abs_le]
  constructor <;> linarith

/-- Logarithms turn roundings into an absolute error. -/
theorem abs_log_sub_log_le (h : Within n x y) (hn : n ≤ 32) : |Real.log x - Real.log y| ≤ 1 / 2 ^ 47 := by
  have key : ∀ {a b : ℝ}, 0 < a → 0 < b → a * (1 - 1 / 2 ^ 48) ≤ b → Real.log a - Real.log b ≤ 1 / 2 ^ 47 := by
    intro a b ha hb hab
    rw [← Real.log_div ha.ne' hb.ne']
    refine (Real.log_le_sub_one_of_pos (div_pos ha hb)).trans ?_
    rw [sub_le_iff_le_add, div_le_iff₀ hb]
    linarith
  have hxy := key h.left_pos h.right_pos (h.le_right hn)
  have hyx := key h.right_pos h.left_pos (h.le_left hn)
  rw [abs_le]
  constructor <;> linarith

/-- The margin of (P4): roundings move no number across a threshold that is one part in `2^40` away. -/
theorem le_iff_le (h : Within n x y) (h' : Within m c d) (hn : n + m ≤ 32)
    (hmargin : (2 : ℝ) ^ (-40 : ℤ) * y < |y - d|) : x ≤ c ↔ y ≤ d := by
  have hq := h.div h'
  have hc := h'.left_pos
  have hd := h'.right_pos
  have hlo : y / d * (1 - 1 / 2 ^ 48) ≤ x / c := hq.le_left hn
  have hhi : x / c * (1 - 1 / 2 ^ 48) ≤ y / d := hq.le_right hn
  have hdist : 1 / 2 ^ 40 * (y / d) < |y / d - 1| := by
    rw [div_sub_one hd.ne', abs_div, abs_of_pos hd, ← mul_div_assoc]
    gcongr
    rwa [zpow_neg, ← one_div] at hmargin
  rw [← div_le_one hc, ← div_le_one hd]
  constructor
  · intro hxc
    by_contra hyd
    rw [not_le] at hyd
    rw [abs_of_pos (sub_pos.mpr hyd)] at hdist
    linarith
  · intro hyd
    rw [abs_of_nonpos (sub_nonpos.mpr hyd)] at hdist
    linarith

/-- The distance to 1 of a number up to 1/2 suffers at most twice the roundings. -/
theorem one_sub (h : Within n x y) (hn : n ≤ 32) (hy : y ≤ 1 / 2) : Within (n + n) (1 - x) (1 - y) := by
  have hr := le_roundLoss_pow hn
  have hr1 : roundLoss ^ n ≤ 1 := pow_le_one₀ roundLoss_pos.le roundLoss_le_one
  obtain ⟨hx0, hy0, hlo, hhi⟩ := h
  have hx1 : x < 1 := by nlinarith
  suffices (1 - y) * (roundLoss ^ n * roundLoss ^ n) ≤ 1 - x ∧ (1 - x) * (roundLoss ^ n * roundLoss ^ n) ≤ 1 - y by
    exact ⟨by linarith, by linarith, by rw [pow_add]; exact this.1, by rw [pow_add]; exact this.2⟩
  generalize roundLoss ^ n = r at *
  have hr0 : 2 / 3 ≤ r := by linarith
  constructor
  · -- with `x ≤ y / r` and `y ≤ 1/2` this is `1 + r^3 ≤ 2 r`
    have hcubic : (1 - r) * (1 - r - r ^ 2) ≤ 0 :=
      mul_nonpos_of_nonneg_of_nonpos (by linarith) (by nlinarith)
    have : (1 - y) * (r * r) * r ≤ (1 - x) * r := by nlinarith
    exact le_of_mul_le_mul_right this (by linarith)
  · -- with `y r ≤ x` and `y ≤ 1/2` this is `1 + r^3 ≥ 2 r^2`
    have hsq : 0 ≤ (1 - r) * (1 + r - r ^ 2) := mul_nonneg (by linarith) (by nlinarith)
    nlinarith [mul_nonneg (sub_nonneg.mpr hlo) (sq_nonneg r)]

end Within

end Sys2Proof.Machine
end

section
/-! SUPPORT. The open LN against the real logarithm (42_estimate.md R172): how narrow the enclosure is, that every admissible
choice has the sign of the logarithm (L1, L3) and lies within one unit in the last place of it (L2), and what a correction
computed with LN is worth. -/

namespace Sys2Proof.Machine

/-! ### The neighbours of a rational -/

/-- `down64` answers `n` units for the greatest such `n`. -/
theorem down64_eq_floor_mul (q : ℚ) : down64 q = ⌊q / ulp q⌋ * ulp q := by
  rcases eq_or_ne q 0 with rfl | hq
  · simp [down64]
  · rw [down64, if_neg hq, ratFloor_eq, Rat.mkRat_eq_div, Nat.cast_one, div_one]

@[simp] theorem down64_zero : down64 0 = 0 := rfl

@[simp] theorem up64_zero : up64 0 = 0 := rfl

/-- Rounding a positive number down stays in its binade. -/
theorem twoPow_binade_le_down64 {q : ℚ} (h : 0 < q) : twoPow (binade q) ≤ down64 q := by
  have hu := ulp_mul_le_abs h.ne'
  rw [abs_of_pos h, mul_comm, ← le_div_iff₀ (ulp_pos q)] at hu
  have hfloor : (2 ^ 52 : ℤ) ≤ ⌊q / ulp q⌋ := Int.le_floor.mpr (by exact_mod_cast hu)
  rw [← ulp_mul_two_pow, mul_comm, down64_eq_floor_mul]
  exact mul_le_mul_of_nonneg_right (by exact_mod_cast hfloor) (ulp_pos q).le

theorem down64_pos {q : ℚ} (h : 0 < q) : 0 < down64 q :=
  (twoPow_pos _).trans_le (twoPow_binade_le_down64 h)

theorem up64_neg_of_neg {q : ℚ} (h : q < 0) : up64 q < 0 :=
  neg_neg_of_pos (down64_pos (neg_pos.mpr h))

/-- Rounding a number down reaches its binade. -/
theorem twoPow_binade_le_abs_down64 {q : ℚ} (hq : q ≠ 0) : twoPow (binade q) ≤ |down64 q| := by
  rcases lt_or_gt_of_ne hq with h | h
  · have hd := (down64_spec q).1
    exact (binade_spec hq).1.trans (abs_le_abs_of_nonpos h.le hd)
  · exact (twoPow_binade_le_down64 h).trans (le_abs_self _)

theorem down64_ne_zero {q : ℚ} (hq : q ≠ 0) : down64 q ≠ 0 :=
  abs_pos.mp ((twoPow_pos _).trans_le (twoPow_binade_le_abs_down64 hq))

/-- The neighbours of a number have no smaller unit. -/
theorem ulp_le_ulp_down64 {q : ℚ} (hq : q ≠ 0) : ulp q ≤ ulp (down64 q) :=
  ulp_le_ulp_of_twoPow_le (twoPow_binade_le_abs_down64 hq)

theorem ulp_le_ulp_up64 {q : ℚ} (hq : q ≠ 0) : ulp q ≤ ulp (up64 q) := by
  have h := ulp_le_ulp_down64 (neg_ne_zero.mpr hq)
  rwa [ulp_neg, ← ulp_neg (down64 (-q))] at h

/-- The two neighbours are at most one unit apart. -/
theorem up64_sub_down64_le (q : ℚ) : up64 q - down64 q ≤ ulp q := by
  have hceil : (⌈q / ulp q⌉ : ℚ) ≤ ⌊q / ulp q⌋ + 1 := by exact_mod_cast Int.ceil_le_floor_add_one (q / ulp q)
  have hup : up64 q = ⌈q / ulp q⌉ * ulp q := by
    rw [up64, down64_eq_floor_mul, ulp_neg, neg_div, Int.floor_neg]
    push_cast
    ring
  rw [hup, down64_eq_floor_mul]
  nlinarith [ulp_pos q]

/-! ### The width of the enclosure -/

/-- The sum is at least its first term. -/
theorem le_artanhSum {z : ℚ} (h : 0 ≤ z) {n : ℕ} (hn : 0 < n) : z ≤ artanhSum z n := by
  rw [artanhSum_eq]
  have hterm : ∀ i ∈ Finset.range n, 0 ≤ z ^ (2 * i + 1) / (2 * i + 1) := fun i _ => by positivity
  simpa using Finset.single_le_sum hterm (Finset.mem_range.mpr hn)

/-- With 48 terms the rest is less than one part in `2^150` of the sum. -/
theorem artanhRest_le {z : ℚ} (h0 : 0 ≤ z) (h1 : z ≤ 1 / 3) :
    0 ≤ artanhRest z lnTerms ∧ artanhRest z lnTerms ≤ artanhSum z lnTerms / 2 ^ 150 := by
  have hden : 8 / 9 ≤ 1 - z * z := by nlinarith
  have hz : z ^ (2 * lnTerms + 1) = z ^ 96 * z := pow_succ z 96
  have hsum : z ≤ artanhSum z lnTerms := le_artanhSum h0 (by decide)
  rw [artanhRest, hz]
  refine ⟨div_nonneg (by positivity) (by linarith), ?_⟩
  calc z ^ 96 * z / (1 - z * z) ≤ (1 / 3) ^ 96 * z / (8 / 9) := by gcongr
    _ ≤ z / 2 ^ 150 := by
      rw [div_le_div_iff₀ (by norm_num) (by norm_num), mul_right_comm, mul_comm z]
      exact mul_le_mul_of_nonneg_right (by norm_num) h0
    _ ≤ artanhSum z lnTerms / 2 ^ 150 := by gcongr

/-- From 1 on the binade is not negative. -/
theorem binade_nonneg {x : ℚ} (hx : 1 ≤ x) : 0 ≤ binade x := by
  refine binade_le_of_twoPow_le ?_
  rw [twoPow_eq_zpow, zpow_zero, abs_of_nonneg (by linarith)]
  exact hx

/-- The argument of the second series, for `1 ≤ x`. -/
theorem reduced_mem {x : ℚ} (hx : 1 ≤ x) :
    0 ≤ (x / twoPow (binade x) - 1) / (x / twoPow (binade x) + 1) ∧
      (x / twoPow (binade x) - 1) / (x / twoPow (binade x) + 1) ≤ 1 / 3 := by
  obtain ⟨hlo, hhi⟩ := binade_spec (q := x) (by linarith)
  have hp := twoPow_pos (binade x)
  rw [abs_of_nonneg (by linarith), twoPow_add, twoPow_eq_zpow 1, zpow_one] at hhi
  rw [abs_of_nonneg (by linarith)] at hlo
  have ht1 : 1 ≤ x / twoPow (binade x) := (one_le_div hp).mpr hlo
  have ht2 : x / twoPow (binade x) < 2 := (div_lt_iff₀ hp).mpr (by linarith)
  refine ⟨div_nonneg (by linarith) (by linarith), ?_⟩
  rw [div_le_iff₀ (by linarith)]
  linarith

/-- For `1 ≤ x` the enclosure is not negative and narrower than one part in `2^150` of it. -/
theorem lnBoundsAbove_width {x : ℚ} (hx : 1 ≤ x) :
    0 ≤ (lnBoundsAbove x).1 ∧ (lnBoundsAbove x).1 ≤ (lnBoundsAbove x).2 ∧
      (lnBoundsAbove x).2 - (lnBoundsAbove x).1 ≤ (lnBoundsAbove x).1 / 2 ^ 150 := by
  obtain ⟨hz0, hz1⟩ := reduced_mem hx
  obtain ⟨hrest, hrest'⟩ := artanhRest_le hz0 hz1
  obtain ⟨hthird, hthird'⟩ := artanhRest_le (z := mkRat 1 3) (by norm_num [Rat.mkRat_eq_div]) (by norm_num [Rat.mkRat_eq_div])
  have hk : (0 : ℚ) ≤ mkRat (binade x) 1 := by
    rw [Rat.mkRat_eq_div, Nat.cast_one, div_one]
    exact_mod_cast binade_nonneg hx
  simp only [lnBoundsAbove]
  generalize mkRat (binade x) 1 = k at *
  generalize (x / twoPow (binade x) - 1) / (x / twoPow (binade x) + 1) = z at *
  generalize artanhSum z lnTerms = a, artanhRest z lnTerms = r at *
  generalize artanhSum (mkRat 1 3) lnTerms = a', artanhRest (mkRat 1 3) lnTerms = r' at *
  have hkr := mul_nonneg hk hthird
  have hkr' := mul_le_mul_of_nonneg_left hthird' hk
  refine ⟨?_, ?_, ?_⟩ <;> linarith

theorem lnBounds_of_one_le {x : ℚ} (h : 1 ≤ x) : lnBounds x = lnBoundsAbove x := if_pos h

theorem lnBounds_of_lt_one {x : ℚ} (h : x < 1) :
    lnBounds x = (-(lnBoundsAbove (1 / x)).2, -(lnBoundsAbove (1 / x)).1) := if_neg (not_le.mpr h)

/-- The enclosure of `ln x` lies on one side of 0 and is narrower than one part in `2^150` of each number in it. -/
theorem lnBounds_width {x q : ℚ} (hx : 0 < x) (hlo : (lnBounds x).1 ≤ q) (hhi : q ≤ (lnBounds x).2) :
    (lnBounds x).2 - (lnBounds x).1 ≤ |q| / 2 ^ 150 := by
  rcases le_or_gt 1 x with h | h
  · rw [lnBounds_of_one_le h] at *
    obtain ⟨h0, -, hw⟩ := lnBoundsAbove_width h
    linarith [le_abs_self q]
  · rw [lnBounds_of_lt_one h] at *
    obtain ⟨h0, -, hw⟩ := lnBoundsAbove_width ((one_le_div hx).mpr h.le)
    linarith [neg_le_abs q]

theorem lnBounds_le {x : ℚ} (hx : 0 < x) : (lnBounds x).1 ≤ (lnBounds x).2 := by
  have h := lnBounds_encloses hx
  exact_mod_cast h.1.trans h.2

/-! ### The sign of LN -/

/-- Above 1 the enclosure is positive. -/
theorem lnBoundsAbove_pos {x : ℚ} (h : 1 < x) : 0 < (lnBoundsAbove x).1 := by
  obtain ⟨h0, -, hw⟩ := lnBoundsAbove_width h.le
  have hlog : 0 < Real.log x := Real.log_pos (by exact_mod_cast h)
  have hhi : 0 < (lnBoundsAbove x).2 := by exact_mod_cast hlog.trans_le (lnBoundsAbove_encloses h.le).2
  linarith

/-- At 1 the enclosure is the one number 0. -/
theorem lnBounds_one : lnBounds 1 = (0, 0) := by
  obtain ⟨h0, hle, hw⟩ := lnBoundsAbove_width le_rfl
  have hlo : (lnBoundsAbove 1).1 ≤ 0 := by
    have h := (lnBoundsAbove_encloses le_rfl).1
    rw [Rat.cast_one, Real.log_one] at h
    exact_mod_cast h
  rw [lnBounds_of_one_le le_rfl]
  exact Prod.ext (by linarith) (by linarith)

theorem lnBounds_pos {x : ℚ} (h : 1 < x) : 0 < (lnBounds x).1 := by
  rw [lnBounds_of_one_le h.le]
  exact lnBoundsAbove_pos h

theorem lnBounds_neg {x : ℚ} (h0 : 0 < x) (h : x < 1) : (lnBounds x).2 < 0 := by
  rw [lnBounds_of_lt_one h]
  exact neg_neg_of_pos (lnBoundsAbove_pos ((one_lt_div h0).mpr h))

/-- The upper end of the enclosure is 0 at 1 only. -/
theorem lnBounds_snd_ne_zero {x : ℚ} (h0 : 0 < x) (h1 : x ≠ 1) : (lnBounds x).2 ≠ 0 := by
  rcases lt_or_gt_of_ne h1 with h | h
  · exact (lnBounds_neg h0 h).ne
  · exact ((lnBounds_pos h).trans_le (lnBounds_le h0)).ne'

/-- The two values LN is chosen from: the neighbours of the upper end of the enclosure where both ends have the same value below
them, and else that value below the upper end, twice. -/
theorem lnNeighbours_cases (x : ℚ) :
    (lnNeighbours x = (down64 (lnBounds x).2, up64 (lnBounds x).2) ∧ down64 (lnBounds x).2 = down64 (lnBounds x).1) ∨
      lnNeighbours x = (down64 (lnBounds x).2, down64 (lnBounds x).2) := by
  by_cases h : down64 (lnBounds x).1 = down64 (lnBounds x).2
  · exact .inl ⟨by rw [lnNeighbours]; simp only [h, if_true], h.symm⟩
  · exact .inr (by rw [lnNeighbours]; simp only [h, if_false])

/-- LN is one of the two values, or the value after the one further from zero. -/
theorem ln_eq_neighbour (x : ℚ) :
    ln x = (lnNeighbours x).1 ∨ ln x = (lnNeighbours x).2 ∨ ln x = lnFar x := by
  unfold ln
  split
  · exact .inl rfl
  · exact .inr (.inl rfl)
  · exact .inr (.inr rfl)

theorem lnFar_of_one_le {x : ℚ} (h : 1 ≤ x) : lnFar x = nextBinade (lnNeighbours x).1 (lnNeighbours x).2 := if_pos h

theorem lnFar_of_lt_one {x : ℚ} (h : x < 1) : lnFar x = nextBinade (lnNeighbours x).2 (lnNeighbours x).1 :=
  if_neg (not_le.mpr h)

theorem nextBinade_cases (inner outer : ℚ) :
    nextBinade inner outer = outer ∨
      nextBinade inner outer = outer + (outer - inner) ∧ binade (outer + (outer - inner)) ≠ binade outer := by
  unfold nextBinade
  split
  · exact .inl rfl
  · next h => exact .inr ⟨rfl, h⟩

/-- (L1) -/
theorem ln_one : ln 1 = 0 := by
  have hn : lnNeighbours 1 = (0, 0) := by simp [lnNeighbours, lnBounds_one]
  have hf : lnFar 1 = 0 := by simp [lnFar, hn, nextBinade]
  rcases ln_eq_neighbour 1 with h | h | h <;> simp [h, hn, hf]

/-- Above 1 the two values are positive and in order. -/
theorem lnNeighbours_pos {x : ℚ} (h : 1 < x) :
    0 < (lnNeighbours x).1 ∧ (lnNeighbours x).1 ≤ (lnNeighbours x).2 := by
  have hq := (lnBounds_pos h).trans_le (lnBounds_le (by linarith))
  rcases lnNeighbours_cases x with ⟨hn, -⟩ | hn <;> rw [hn]
  · exact ⟨down64_pos hq, (down64_spec _).1.trans (up64_spec _).1⟩
  · exact ⟨down64_pos hq, le_rfl⟩

/-- Below 1 the two values are negative and in order. -/
theorem lnNeighbours_neg {x : ℚ} (h0 : 0 < x) (h : x < 1) :
    (lnNeighbours x).1 ≤ (lnNeighbours x).2 ∧ (lnNeighbours x).2 < 0 := by
  have hq := lnBounds_neg h0 h
  rcases lnNeighbours_cases x with ⟨hn, -⟩ | hn <;> rw [hn]
  · exact ⟨(down64_spec _).1.trans (up64_spec _).1, up64_neg_of_neg hq⟩
  · exact ⟨le_rfl, (down64_spec _).1.trans_lt hq⟩

/-- LN is positive above 1. -/
theorem ln_pos {x : ℚ} (h : 1 < x) : 0 < ln x := by
  obtain ⟨hpos, hle⟩ := lnNeighbours_pos h
  rcases ln_eq_neighbour x with hln | hln | hln <;> rw [hln]
  · exact hpos
  · exact hpos.trans_le hle
  · rw [lnFar_of_one_le h.le]
    rcases nextBinade_cases (lnNeighbours x).1 (lnNeighbours x).2 with hf | ⟨hf, -⟩ <;> rw [hf] <;> linarith

/-- LN is negative below 1. -/
theorem ln_neg {x : ℚ} (h0 : 0 < x) (h : x < 1) : ln x < 0 := by
  obtain ⟨hle, hneg⟩ := lnNeighbours_neg h0 h
  rcases ln_eq_neighbour x with hln | hln | hln <;> rw [hln]
  · exact hle.trans_lt hneg
  · exact hneg
  · rw [lnFar_of_lt_one h]
    rcases nextBinade_cases (lnNeighbours x).2 (lnNeighbours x).1 with hf | ⟨hf, -⟩ <;> rw [hf] <;> linarith

/-- Settles O45: the enclosure is 0 at 1 and lies on the logarithm's side of 0 elsewhere, and no choice leaves that side. -/
theorem lnSigns : Obligations.LnSigns := by
  refine ⟨ln_one, fun x h => ?_, fun x h0 h => ln_neg h0 h⟩
  rcases eq_or_lt_of_le h with rfl | h
  · exact ln_one.ge
  · exact (ln_pos h).le

/-! ### LN within one unit -/

/-- Two binary64 values around a real number, each within its own unit of it, the second no nearer to zero. -/
structure Brackets (inner outer : ℚ) (r : ℝ) : Prop where
  outward : |inner| ≤ |outer|
  gap : |outer - inner| ≤ ulp outer
  inner_near : |(inner : ℝ) - r| ≤ ulp inner
  outer_near : |(outer : ℝ) - r| ≤ ulp outer

/-- The value after the outer one, where it opens the next binade, has twice the unit and so is within it too. -/
theorem Brackets.nextBinade_near {inner outer : ℚ} {r : ℝ} (h : Brackets inner outer r) :
    |(nextBinade inner outer : ℝ) - r| ≤ ulp (nextBinade inner outer) := by
  rcases nextBinade_cases inner outer with hf | ⟨hf, hne⟩ <;> rw [hf]
  · exact h.outer_near
  rcases eq_or_ne outer 0 with rfl | h0
  · have hi : inner = 0 := by simpa using h.outward
    simp [hi] at hne
  have habs : |outer| ≤ |outer + (outer - inner)| := by
    have htri := abs_sub_abs_le_abs_sub (2 * outer) inner
    rw [abs_mul, abs_two] at htri
    rw [show outer + (outer - inner) = 2 * outer - inner by ring]
    linarith [h.outward]
  have hlt : binade outer < binade (outer + (outer - inner)) :=
    lt_of_le_of_ne (binade_le_of_twoPow_le ((binade_spec h0).1.trans habs)) hne.symm
  have hulp : 2 * ulp outer ≤ ulp (outer + (outer - inner)) := by
    have hle : twoPow (1 + (binade outer - 52)) ≤ ulp (outer + (outer - inner)) := twoPow_le (by omega)
    rwa [twoPow_add, twoPow_eq_zpow 1, zpow_one] at hle
  have hgap : |(outer : ℝ) - inner| ≤ ulp outer := by exact_mod_cast h.gap
  have hulp' : 2 * (ulp outer : ℝ) ≤ ulp (outer + (outer - inner)) := by exact_mod_cast hulp
  calc |((outer + (outer - inner) : ℚ) : ℝ) - r| = |((outer : ℝ) - inner) + (outer - r)| := by push_cast; congr 1; ring
    _ ≤ |(outer : ℝ) - inner| + |(outer : ℝ) - r| := abs_add_le _ _
    _ ≤ ulp (outer + (outer - inner)) := by linarith [h.outer_near]

/-- A value is near an enclosed number if it is near both ends. -/
theorem abs_sub_le_of_enclosed {p lo hi u : ℚ} {r : ℝ} (hr : (lo : ℝ) ≤ r ∧ r ≤ hi) (hlo : p - lo ≤ u)
    (hhi : hi - p ≤ u) : |(p : ℝ) - r| ≤ u := by
  have hlo' : (p : ℝ) - lo ≤ u := by exact_mod_cast hlo
  have hhi' : (hi : ℝ) - p ≤ u := by exact_mod_cast hhi
  rw [abs_le]
  constructor <;> linarith [hr.1, hr.2]

section Near

variable {x : ℚ} (h0 : 0 < x) (h1 : x ≠ 1)

include h0 h1

/-- The value below the upper end is within its unit of the logarithm, on either side of the lower end. -/
theorem down64_near : |(down64 (lnBounds x).2 : ℝ) - Real.log x| ≤ ulp (down64 (lnBounds x).2) := by
  obtain ⟨hdown, hdown'⟩ := down64_spec (lnBounds x).2
  have hq := lnBounds_snd_ne_zero h0 h1
  have hulp := ulp_le_ulp_down64 hq
  refine abs_sub_le_of_enclosed (lnBounds_encloses h0) ?_ (by linarith)
  rcases le_total (down64 (lnBounds x).2) (lnBounds x).1 with h | h
  · linarith [ulp_pos (down64 (lnBounds x).2)]
  · linarith [lnBounds_width h0 h hdown, abs_lt_ulp_mul (down64_ne_zero hq)]

/-- If no value lies inside the enclosure, the value above it is within its unit too. -/
theorem up64_near (h : down64 (lnBounds x).2 = down64 (lnBounds x).1) :
    |(up64 (lnBounds x).2 : ℝ) - Real.log x| ≤ ulp (up64 (lnBounds x).2) := by
  have hulp := ulp_le_ulp_up64 (lnBounds_snd_ne_zero h0 h1)
  refine abs_sub_le_of_enclosed (lnBounds_encloses h0) ?_ ?_
  · linarith [up64_sub_down64_le (lnBounds x).2, (down64_spec (lnBounds x).1).1]
  · linarith [(up64_spec (lnBounds x).2).1, ulp_pos (up64 (lnBounds x).2)]

/-- Both values are near the logarithm, and no further apart than the unit of either. -/
theorem lnNeighbours_near :
    |((lnNeighbours x).1 : ℝ) - Real.log x| ≤ ulp (lnNeighbours x).1 ∧
      |((lnNeighbours x).2 : ℝ) - Real.log x| ≤ ulp (lnNeighbours x).2 ∧
      (lnNeighbours x).2 - (lnNeighbours x).1 ≤ ulp (lnNeighbours x).1 ∧
      (lnNeighbours x).2 - (lnNeighbours x).1 ≤ ulp (lnNeighbours x).2 := by
  have hq := lnBounds_snd_ne_zero h0 h1
  have hgap := up64_sub_down64_le (lnBounds x).2
  rcases lnNeighbours_cases x with ⟨hn, heq⟩ | hn <;> rw [hn]
  · exact ⟨down64_near h0 h1, up64_near h0 h1 heq, hgap.trans (ulp_le_ulp_down64 hq), hgap.trans (ulp_le_ulp_up64 hq)⟩
  · simp only [sub_self]
    exact ⟨down64_near h0 h1, down64_near h0 h1, (ulp_pos _).le, (ulp_pos _).le⟩

end Near

/-- Above 1 the upper value is the outer one. -/
theorem brackets_of_one_lt {x : ℚ} (h : 1 < x) : Brackets (lnNeighbours x).1 (lnNeighbours x).2 (Real.log x) := by
  obtain ⟨hlo, hhi, -, hgap⟩ := lnNeighbours_near (zero_lt_one.trans h) h.ne'
  obtain ⟨hpos, hle⟩ := lnNeighbours_pos h
  exact ⟨abs_le_abs_of_nonneg hpos.le hle, by rwa [abs_of_nonneg (by linarith)], hlo, hhi⟩

/-- Below 1 the lower value is the outer one. -/
theorem brackets_of_lt_one {x : ℚ} (h0 : 0 < x) (h : x < 1) :
    Brackets (lnNeighbours x).2 (lnNeighbours x).1 (Real.log x) := by
  obtain ⟨hlo, hhi, hgap, -⟩ := lnNeighbours_near h0 h.ne
  obtain ⟨hle, hneg⟩ := lnNeighbours_neg h0 h
  exact ⟨abs_le_abs_of_nonpos hneg.le hle, by rwa [abs_of_nonpos (by linarith), neg_sub], hhi, hlo⟩

/-- Settles O46: at 1 both are 0, and elsewhere LN is one of the two values around the logarithm or the next one outward. -/
theorem lnWithinOneUlp : Obligations.LnWithinOneUlp := by
  intro x h0
  rcases lt_trichotomy x 1 with h | rfl | h
  · have hb := brackets_of_lt_one h0 h
    rcases ln_eq_neighbour x with hln | hln | hln <;> rw [hln]
    · exact hb.outer_near
    · exact hb.inner_near
    · rw [lnFar_of_lt_one h]
      exact hb.nextBinade_near
  · rw [ln_one]
    simpa using (ulp_pos 0).le
  · have hb := brackets_of_one_lt h
    rcases ln_eq_neighbour x with hln | hln | hln <;> rw [hln]
    · exact hb.inner_near
    · exact hb.outer_near
    · rw [lnFar_of_one_le h.le]
      exact hb.nextBinade_near

/-! ### What a correction is worth -/

/-- The error of LN as a part of its result. -/
theorem abs_ln_sub_log_le {x : ℚ} (h0 : 0 < x) : |(ln x : ℝ) - Real.log x| ≤ |(ln x : ℝ)| / 2 ^ 52 := by
  rcases eq_or_ne x 1 with rfl | h1
  · simp [ln_one]
  · have hln : ln x ≠ 0 := by
      rcases lt_or_gt_of_ne h1 with h | h
      · exact (ln_neg h0 h).ne
      · exact (ln_pos h).ne'
    have hulp : (ulp (ln x) : ℝ) * 2 ^ 52 ≤ |(ln x : ℝ)| := by exact_mod_cast ulp_mul_le_abs hln
    exact (lnWithinOneUlp x h0).trans ((le_div_iff₀ (by norm_num)).mpr hulp)

/-- A correction `LN(y) * c`, rounded, against `ln Y * c`, where `y` is up to 32 roundings off `Y`. -/
theorem abs_fmul_ln_sub_le {n : ℕ} {y c : ℚ} {Y : ℝ} (hy : Within n y Y) (hn : n ≤ 32) (hY : |Real.log Y| ≤ 57)
    (hc : 0 ≤ c) : |(fmul (ln y) c : ℝ) - Real.log Y * c| ≤ c / 2 ^ 45 := by
  have hc' : (0 : ℝ) ≤ c := by exact_mod_cast hc
  have hln := abs_ln_sub_log_le (x := y) (by exact_mod_cast hy.left_pos)
  have hlog := hy.abs_log_sub_log_le hn
  have hmul : |(fmul (ln y) c : ℝ) - ln y * c| ≤ |(ln y : ℝ)| * c / 2 ^ 53 := by
    have h := abs_round64_sub_le (ln y * c)
    rw [abs_mul, abs_of_nonneg hc] at h
    exact_mod_cast h
  have hsmall : |(ln y : ℝ)| ≤ 58 := by
    have h1 := abs_sub_abs_le_abs_sub (ln y : ℝ) (Real.log y)
    have h2 := abs_sub_abs_le_abs_sub (Real.log y) (Real.log Y)
    linarith
  have hsub : |(ln y : ℝ) - Real.log Y| ≤ 3 / 2 ^ 47 := by
    have h := abs_sub_le (ln y : ℝ) (Real.log y) (Real.log Y)
    linarith
  calc |(fmul (ln y) c : ℝ) - Real.log Y * c|
      ≤ |(fmul (ln y) c : ℝ) - ln y * c| + |(ln y : ℝ) * c - Real.log Y * c| := abs_sub_le _ _ _
    _ ≤ 58 * c / 2 ^ 53 + 3 / 2 ^ 47 * c := by
      rw [← sub_mul, abs_mul, abs_of_nonneg hc']
      gcongr
      exact hmul.trans (by gcongr)
    _ ≤ c / 2 ^ 45 := by linarith

end Sys2Proof.Machine
end

section
/-! SUPPORT. The estimate in binary64 against the formula over the reals (42_estimate.md R162 to R171): how far the raw estimate
and each correction are from theirs, and which correction applies. -/

namespace Sys2Proof.Machine

/-! ### The constants -/

@[simp] theorem fM_eq (b : ℕ) : fM b = 2 ^ b := by
  simp [fM, Rat.mkRat_one]

/-- The threshold of the small-range correction (R164). -/
theorem five_halves_mul_fM (b : ℕ) : mkRat 5 2 * fM b = 5 / 2 * 2 ^ b := by
  norm_num [Rat.mkRat_eq_div]

@[simp] theorem f2p32_eq : f2p32 = 2 ^ 32 := by
  norm_num [f2p32, Rat.mkRat_one]

theorem within_fM (b : ℕ) : Within 0 (fM b : ℝ) (2 ^ b) :=
  .of_eq (by positivity) (by simp)

theorem within_f2p32 : Within 0 (f2p32 : ℝ) (2 ^ 32) :=
  .of_eq (by positivity) (by simp)

theorem within_mkRat {n : ℤ} {d : ℕ} {y : ℝ} (hy : 0 < y) (h : (n : ℝ) / d = y) : Within 0 (mkRat n d : ℝ) y := by
  refine .of_eq hy ?_
  rw [← h, Rat.mkRat_eq_div]
  push_cast
  rfl

theorem within_t30 : Within 1 (t30 : ℝ) (2 ^ 32 / 30) :=
  within_f2p32.fdiv (within_mkRat (by norm_num) (by norm_num))

theorem t30_mem : (2 : ℚ) ^ 27 ≤ t30 ∧ t30 ≤ 2 ^ 28 := by
  have hlo := within_t30.le_left (by decide)
  have hhi := within_t30.le_right (by decide)
  have hlo' : (2 : ℝ) ^ 27 ≤ t30 := by linarith
  have hhi' : (t30 : ℝ) ≤ 2 ^ 28 := by linarith
  exact ⟨by exact_mod_cast hlo', by exact_mod_cast hhi'⟩

/-- ALPHA64 suffers at most five roundings (R169). -/
theorem within_alpha64 (b : ℕ) : Within 5 (alpha64 b : ℝ) (alphaReal b) := by
  have hdecimal : ∀ {n : ℤ} {d : ℕ} {y : ℝ}, 0 < y → (n : ℝ) / d = y → Within 1 (round64 (mkRat n d) : ℝ) y :=
    fun hy h => (within_mkRat hy h).round64
  unfold alpha64 alphaReal
  split
  · exact (hdecimal (by norm_num) (by norm_num)).mono (by decide)
  split
  · exact (hdecimal (by norm_num) (by norm_num)).mono (by decide)
  split
  · exact (hdecimal (by norm_num) (by norm_num)).mono (by decide)
  · have hquot : Within 2 (fdiv (round64 (mkRat 1079 1000)) (fM b) : ℝ) (1079 / 1000 / 2 ^ b) :=
      (hdecimal (by norm_num) (by norm_num)).fdiv (within_fM b)
    have hone : Within 2 ((1 : ℚ) : ℝ) 1 := (Within.of_eq one_pos Rat.cast_one).mono (by decide)
    exact (hdecimal (by norm_num) (by norm_num)).fdiv (hone.fadd hquot)

theorem alphaReal_le_one (b : ℕ) : alphaReal b ≤ 1 := by
  unfold alphaReal
  split_ifs
  · norm_num
  · norm_num
  · norm_num
  · exact div_le_one_of_le₀ (by linarith [show (0 : ℝ) ≤ 1079 / 1000 / 2 ^ b by positivity]) (by positivity)

/-! ### The raw estimate -/

/-- The raw estimate suffers at most nine roundings (R163, R168). -/
theorem within_rawF64 (b : ℕ) {zi : ℕ} (hzi : 0 < zi) : Within 9 (rawF64 b zi : ℝ) (e0Real b zi) := by
  have hzi' : (0 : ℝ) < zi := Nat.cast_pos.mpr hzi
  have hz : Within 1 (fdiv (mkRat zi 1) (mkRat (2 ^ 29 : ℕ) 1) : ℝ) (zi / 2 ^ 29) :=
    (within_mkRat hzi' (by simp)).fdiv (within_mkRat (by positivity) (by norm_num))
  have hn := ((within_alpha64 b).fmul (within_fM b)).fmul (within_fM b)
  have he : e0Real b zi = alphaReal b * 2 ^ b * 2 ^ b / (zi / 2 ^ 29) := by
    rw [e0Real, div_div_eq_mul_div]
    ring
  rw [he]
  exact hn.fdiv hz

theorem isF64_rawF64 (b zi : ℕ) : IsF64 (rawF64 b zi) := isF64_round64 _

/-! ### The small-range correction -/

theorem smallF64_of_pos {lnF : F64 → F64} {b v : ℕ} {fE : F64} (h : fE ≤ mkRat 5 2 * fM b ∧ 0 < v) :
    smallF64 lnF b v fE = fmul (lnF (fdiv (fM b) (mkRat v 1))) (fM b) := if_pos h

theorem smallF64_of_neg {lnF : F64 → F64} {b v : ℕ} {fE : F64} (h : ¬(fE ≤ mkRat 5 2 * fM b ∧ 0 < v)) :
    smallF64 lnF b v fE = fE := if_neg h

section Small

variable {b v : ℕ} (hb : b ≤ 16) (hv : 0 < v) (hvm : v ≤ 2 ^ b)

include hb hv hvm

/-- The logarithm of `m / V` (R164). -/
theorem log_div_mem : 0 ≤ Real.log (2 ^ b / v) ∧ Real.log (2 ^ b / v) ≤ 16 * Real.log 2 := by
  have hv1 : (1 : ℝ) ≤ v := by exact_mod_cast hv
  have hvm' : (v : ℝ) ≤ 2 ^ b := by exact_mod_cast hvm
  have hb' : (b : ℝ) ≤ 16 := by exact_mod_cast hb
  refine ⟨Real.log_nonneg ((one_le_div (by linarith)).mpr hvm'), ?_⟩
  calc Real.log (2 ^ b / v) ≤ Real.log (2 ^ b) :=
        Real.log_le_log (by positivity) (div_le_self (by positivity) hv1)
    _ = b * Real.log 2 := Real.log_pow 2 b
    _ ≤ 16 * Real.log 2 := by gcongr

/-- R176, over the reals. -/
theorem mul_log_div_lt : 2 ^ b * Real.log (2 ^ b / v) < 726817 + 1 / 2 := by
  obtain ⟨hlog, hlog'⟩ := log_div_mem hb hv hvm
  calc 2 ^ b * Real.log (2 ^ b / v) ≤ 2 ^ 16 * (16 * Real.log 2) :=
        mul_le_mul (pow_le_pow_right₀ one_le_two hb) hlog' hlog (by positivity)
    _ < 726817 + 1 / 2 := by linarith [Real.log_two_lt_d9]

/-- The small-range value is close to `m * ln(m / V)`. -/
theorem abs_small_sub_le :
    |(fmul (ln (fdiv (fM b) (mkRat v 1))) (fM b) : ℝ) - 2 ^ b * Real.log (2 ^ b / v)| ≤ 1 / 2 ^ 29 := by
  obtain ⟨hlog, hlog'⟩ := log_div_mem hb hv hvm
  have hquot := (within_fM b).fdiv (within_mkRat (n := v) (d := 1) (Nat.cast_pos.mpr hv) (by simp))
  have hm : (2 : ℝ) ^ b ≤ 2 ^ 16 := pow_le_pow_right₀ one_le_two hb
  have hbound : |Real.log (2 ^ b / v)| ≤ 57 := by
    rw [abs_of_nonneg hlog]
    linarith [Real.log_two_lt_d9]
  have h := abs_fmul_ln_sub_le (c := fM b) hquot (by decide) hbound (by simp)
  have hc : ((fM b : ℚ) : ℝ) = 2 ^ b := by simp
  rw [hc] at h
  rw [mul_comm (2 ^ b)]
  exact h.trans (by linarith)

/-- R176, in binary64. -/
theorem small_lt : fmul (ln (fdiv (fM b) (mkRat v 1))) (fM b) < 726818 := by
  have h := (abs_le.mp (abs_small_sub_le hb hv hvm)).2
  have h' : (fmul (ln (fdiv (fM b) (mkRat v 1))) (fM b) : ℝ) < 726818 := by
    linarith [mul_log_div_lt hb hv hvm]
  exact_mod_cast h'

end Small

/-- No large-range correction follows a value below 726818. -/
theorem largeF64_of_lt_small {lnF : F64 → F64} {fE : F64} (h : fE < 726818) : largeF64 lnF fE = some fE :=
  largeF64_of_le (by linarith [t30_mem.1])

/-- Settles O47: the small-range value is that of `small_lt`. -/
theorem correctionsAreExclusive : Obligations.CorrectionsAreExclusive := by
  intro b v zi _ hb hv hvm hraw
  have hcond : rawF64 b zi ≤ mkRat 5 2 * fM b ∧ 0 < v := ⟨by rwa [five_halves_mul_fM], hv⟩
  rw [smallF64_of_pos hcond]
  have h := small_lt hb hv hvm
  exact ⟨h, largeF64_of_lt_small h⟩

/-! ### The large-range correction -/

/-- The division by `2^32` is exact (R168). -/
theorem IsF64.fdiv_f2p32 {q : F64} (h : IsF64 q) : fdiv q f2p32 = q / 2 ^ 32 := by
  have hscale : q / f2p32 = q * twoPow (-32) := by
    rw [twoPow_eq_zpow, f2p32_eq]
    norm_num [div_eq_mul_inv]
  rw [fdiv, hscale, (h.mul_twoPow _).round64_eq, ← hscale, f2p32_eq]

/-- `fY` is positive exactly below `2^32` (R168). -/
theorem fsub_one_nonpos_iff {q : F64} (h : IsF64 q) : fsub 1 (fdiv q f2p32) ≤ 0 ↔ 2 ^ 32 ≤ q := by
  rw [fsub, h.fdiv_f2p32]
  constructor
  · intro hle
    by_contra hlt
    refine absurd hle (not_le.mpr (round64_pos (sub_pos.mpr ?_)))
    rw [div_lt_one (by positivity)]
    exact not_le.mp hlt
  · intro hle
    refine round64_nonpos (sub_nonpos.mpr ?_)
    rwa [one_le_div (by positivity)]

/-- From `2^32` on there is no value (R167). -/
theorem largeF64_eq_none {lnF : F64 → F64} {q : F64} (h : IsF64 q) (hq : 2 ^ 32 ≤ q) : largeF64 lnF q = none := by
  rw [largeF64_of_lt (by linarith [t30_mem.2]), if_pos ((fsub_one_nonpos_iff h).mpr hq)]

/-- Above the threshold and below `2^32` the correction applies (R165). -/
theorem largeF64_eq_correction {lnF : F64 → F64} {q : F64} (h : IsF64 q) (ht : t30 < q) (hq : q < 2 ^ 32) :
    largeF64 lnF q = some (-(fmul (lnF (fsub 1 (fdiv q f2p32))) f2p32)) := by
  rw [largeF64_of_lt ht, if_neg fun hle => not_le.mpr hq ((fsub_one_nonpos_iff h).mp hle)]

/-- Below `2^32` there is a value. -/
theorem exists_largeF64 {lnF : F64 → F64} {q : F64} (h : IsF64 q) (hq : q < 2 ^ 32) : ∃ y, largeF64 lnF q = some y := by
  rcases le_or_gt q t30 with ht | ht
  · exact ⟨q, largeF64_of_le ht⟩
  · exact ⟨_, largeF64_eq_correction h ht hq⟩

/-- EST_F64 has a value while the raw estimate is below `2^32` (R168). -/
theorem exists_estF64_of_lt {b v zi : ℕ} (hb : b ≤ 16) (hvm : v ≤ 2 ^ b) (hraw : rawF64 b zi < 2 ^ 32) :
    ∃ r, estF64 ln b v zi = some r := by
  have hvalue : ∃ y, largeF64 ln (smallF64 ln b v (rawF64 b zi)) = some y := by
    by_cases hcond : rawF64 b zi ≤ mkRat 5 2 * fM b ∧ 0 < v
    · rw [smallF64_of_pos hcond]
      exact ⟨_, largeF64_of_lt_small (small_lt hb hcond.2 hvm)⟩
    · rw [smallF64_of_neg hcond]
      exact exists_largeF64 (isF64_rawF64 b zi) hraw
  obtain ⟨y, hy⟩ := hvalue
  exact ⟨truncData y, by rw [estF64, estWith, hy, Option.map_some]⟩

/-- EST_F64 has no value from there on: the small range ends far below `2^32` (R167). -/
theorem estF64_eq_none {b v zi : ℕ} (hb : b ≤ 16) (hraw : 2 ^ 32 ≤ rawF64 b zi) : estF64 ln b v zi = none := by
  have hm : (2 : ℚ) ^ b ≤ 2 ^ 16 := pow_le_pow_right₀ one_le_two hb
  have hcond : ¬(rawF64 b zi ≤ mkRat 5 2 * fM b ∧ 0 < v) := by
    rintro ⟨hle, -⟩
    rw [five_halves_mul_fM] at hle
    linarith
  rw [estF64, estWith, smallF64_of_neg hcond, largeF64_eq_none (isF64_rawF64 b zi) hraw, Option.map_none]

/-- Settles O43: ESTIMATE answers by whether EST_F64 has a value. -/
theorem estimateCompletesBelowRange : Obligations.EstimateCompletesBelowRange := by
  intro s h hm hc
  have hb := (h.precision hc).2
  refine ⟨fun hraw => ?_, fun hraw => exec_estimate_of_none h hm hc (estF64_eq_none hb hraw)⟩
  obtain ⟨r, hr⟩ := exists_estF64_of_lt hb (zeroCells_le s) hraw
  exact ⟨r, hr, exec_estimate_of_some h hm hc hr⟩

/-! ### The empty estimator -/

/-- With every cell 0 the raw estimate is `α(m) * m`, in the small range (R173). -/
theorem rawF64_empty_le (b : ℕ) : rawF64 b (2 ^ b * 2 ^ 29) ≤ mkRat 5 2 * fM b := by
  have hraw := (within_rawF64 b (zi := 2 ^ b * 2 ^ 29) (by positivity)).le_right (by decide)
  have he : e0Real b (2 ^ b * 2 ^ 29) = alphaReal b * 2 ^ b := by
    rw [e0Real]
    push_cast
    rw [div_eq_iff (by positivity)]
    ring
  rw [he] at hraw
  have hle : alphaReal b * 2 ^ b ≤ 1 * 2 ^ b := mul_le_mul_of_nonneg_right (alphaReal_le_one b) (by positivity)
  have hpos : (0 : ℝ) < 2 ^ b := by positivity
  have h : (rawF64 b (2 ^ b * 2 ^ 29) : ℝ) ≤ 5 / 2 * 2 ^ b := by linarith
  rw [five_halves_mul_fM, ← Rat.cast_le (K := ℝ)]
  push_cast
  exact h

theorem isF64_one : IsF64 1 := by
  simpa [twoPow_eq_zpow] using isF64_of_abs_le (n := 1) (by norm_num) 0

/-- (P1) of R171. -/
theorem estF64_empty (b : ℕ) : estF64 ln b (2 ^ b) (2 ^ b * 2 ^ 29) = some 0 := by
  have hquot : fdiv (fM b) (mkRat (2 ^ b : ℕ) 1) = 1 := by
    rw [fdiv, Rat.mkRat_one, fM_eq, Int.cast_natCast, Nat.cast_pow, Nat.cast_ofNat, div_self (by positivity),
      isF64_one.round64_eq]
  have hzero : fmul (0 : ℚ) (fM b) = 0 := by rw [fmul, zero_mul]; rfl
  rw [estF64, estWith, smallF64_of_pos ⟨rawF64_empty_le b, by positivity⟩, hquot, ln_one, hzero,
    largeF64_of_lt_small (by norm_num)]
  rfl

/-- Settles O44: the statistics are those of (P1). -/
theorem emptyEstimatorAnswersZero : Obligations.EmptyEstimatorAnswersZero := by
  intro s h hm hc hzero
  have hv : zeroCells s = 2 ^ s.b.toNat := by
    rw [zeroCells, State.regCount, List.filter_eq_self.mpr fun j hj => decide_eq_true (hzero j (List.mem_range.mp hj)),
      List.length_range]
  have hzi : cellSum s = 2 ^ s.b.toNat * 2 ^ 29 :=
    le_antisymm (cellSum_le s) (hv ▸ zeroCells_mul_le_cellSum h.cells)
  exact exec_estimate_of_some h hm hc (by rw [hv, hzi, estF64_empty])

/-! ### How large an estimate is -/

/-- A logarithm near 0 or 1 in bits. -/
theorem abs_log_le {k : ℕ} {y : ℝ} (hlo : 1 / 2 ^ k ≤ y) (hhi : y ≤ 1) : |Real.log y| ≤ k := by
  have hpos : (0 : ℝ) < 1 / 2 ^ k := by positivity
  have hlog : Real.log (1 / 2 ^ k) ≤ Real.log y := Real.log_le_log hpos hlo
  rw [one_div, Real.log_inv, Real.log_pow] at hlog
  have hk : k * Real.log 2 ≤ k * 1 :=
    mul_le_mul_of_nonneg_left (by linarith [Real.log_two_lt_d9]) (Nat.cast_nonneg k)
  rw [abs_of_nonpos (Real.log_nonpos (hpos.le.trans hlo) hhi)]
  linarith

/-- A value above the threshold and below `2^32` is at least `2^-57` of `2^32` below it (R177). -/
theorem one_sub_div_mem {q : F64} (h : IsF64 q) (ht : t30 < q) (hq : q < 2 ^ 32) :
    1 / 2 ^ 57 ≤ 1 - q / 2 ^ 32 ∧ 1 - q / 2 ^ 32 ≤ 1 := by
  have h27 : twoPow 27 ≤ |q| := by
    rw [twoPow_eq_zpow]
    exact (t30_mem.1.trans ht.le).trans (le_abs_self q)
  obtain ⟨n, hn⟩ := h.exists_eq_mul h27
  have hn' : q = n * (1 / 2 ^ 25) := by
    rw [hn, twoPow_eq_zpow]
    norm_num
  have hlt : n < 2 ^ 57 := by
    rw [← Int.cast_lt (R := ℚ)]
    push_cast
    linarith
  have hle : (n : ℚ) + 1 ≤ 2 ^ 57 := by exact_mod_cast Int.add_one_le_of_lt hlt
  constructor
  · linarith
  · linarith [t30_mem.1]

/-- The large-range correction stays below `2^38` (R177). -/
theorem correction_lt {q : F64} (h : IsF64 q) (ht : t30 < q) (hq : q < 2 ^ 32) :
    -(fmul (ln (fsub 1 (fdiv q f2p32))) f2p32) < 2 ^ 38 := by
  obtain ⟨hlo, hhi⟩ := one_sub_div_mem h ht hq
  have hlog : |Real.log ((1 - q / 2 ^ 32 : ℚ) : ℝ)| ≤ 57 := by
    have hlo' : 1 / 2 ^ 57 ≤ ((1 - q / 2 ^ 32 : ℚ) : ℝ) := by
      have h := (Rat.cast_le (K := ℝ)).mpr hlo
      rwa [Rat.cast_div, Rat.cast_one, Rat.cast_pow, Rat.cast_ofNat] at h
    exact abs_log_le (k := 57) hlo' (by exact_mod_cast hhi)
  have hround := within_round64 (q := 1 - q / 2 ^ 32) (by linarith)
  rw [fsub, h.fdiv_f2p32]
  have hnear := (abs_le.mp (abs_fmul_ln_sub_le hround (by decide) hlog (c := f2p32) (by simp))).1
  have h57 := (abs_le.mp hlog).1
  have hreal : -(fmul (ln (round64 (1 - q / 2 ^ 32))) f2p32 : ℝ) < 2 ^ 38 := by
    simp only [f2p32_eq, Rat.cast_pow, Rat.cast_ofNat] at hnear ⊢
    linarith
  exact_mod_cast hreal

/-- What the large-range step makes of a binary64 value is below `2^38`. -/
theorem largeF64_lt {q y : F64} (h : IsF64 q) (hy : largeF64 ln q = some y) : y < 2 ^ 38 := by
  rcases le_or_gt q t30 with ht | ht
  · rw [largeF64_of_le ht, Option.some_inj] at hy
    linarith [t30_mem.2]
  · rcases le_or_gt (2 ^ 32) q with hq | hq
    · rw [largeF64_eq_none h hq] at hy
      cases hy
    · rw [largeF64_eq_correction h ht hq, Option.some_inj] at hy
      exact hy ▸ correction_lt h ht hq

theorem truncData_lt {y : F64} {n : ℕ} (h : y < n) (hn : 0 < n) : (truncData y).toNat < n := by
  have hfloor : y.floor < n := Int.floor_lt.mpr (by exact_mod_cast h)
  rw [truncData, BitVec.toNat_ofNat]
  exact (Nat.mod_le _ _).trans_lt ((Int.toNat_lt' hn).mpr hfloor)

/-- Settles O48: the small-range value is far below, and the large-range step bounds the others. -/
theorem estimateBelowTwoPow38 : Obligations.EstimateBelowTwoPow38 := by
  rintro b v zi r ⟨-, hb, hvm, -⟩ hr
  obtain ⟨y, hy, rfl⟩ := Option.map_eq_some_iff.mp hr
  refine truncData_lt (y := y) ?_ (by decide)
  push_cast
  by_cases hcond : rawF64 b zi ≤ mkRat 5 2 * fM b ∧ 0 < v
  · have hsmall := small_lt hb hcond.2 hvm
    rw [smallF64_of_pos hcond, largeF64_of_lt_small hsmall, Option.some_inj] at hy
    linarith
  · rw [smallF64_of_neg hcond] at hy
    exact largeF64_lt (isF64_rawF64 b zi) hy

end Sys2Proof.Machine
end

section
/-! SUPPORT. (P4) of 42_estimate.md R171: away from integers and thresholds the estimate in binary64 is that of the formula over
the reals. -/

namespace Sys2Proof.Machine

/-- Truncation forgets an error below a number's distance to the integers (R166). -/
theorem truncData_eq {y : F64} {x : ℝ} (hnear : |(y : ℝ) - x| ≤ 1 / 2 ^ 12)
    (hint : ∀ k : ℤ, (2 : ℝ) ^ (-12 : ℤ) < |x - k|) : truncData y = BitVec.ofNat 64 ⌊x⌋₊ := by
  have hfar : ∀ k : ℤ, 1 / 2 ^ 12 < |x - k| := fun k => by
    have h := hint k
    rwa [zpow_neg, ← one_div] at h
  have hlo := hfar ⌊x⌋
  have hhi := hfar (⌊x⌋ + 1)
  rw [abs_of_nonneg (sub_nonneg.mpr (Int.floor_le x))] at hlo
  rw [abs_of_nonpos (sub_nonpos.mpr (by exact_mod_cast (Int.lt_floor_add_one x).le))] at hhi
  push_cast at hhi
  obtain ⟨hn1, hn2⟩ := abs_le.mp hnear
  have hfloor : ⌊y⌋ = ⌊x⌋ := by
    rw [← Rat.floor_cast (α := ℝ)]
    exact Int.floor_eq_iff.mpr ⟨by linarith, by linarith⟩
  rw [truncData, ratFloor_eq, hfloor, Int.floor_toNat]

/-- The large-range correction is close to that of the reals, where its argument is below `2^31`. -/
theorem largeF64_near {q : F64} {e : ℝ} (h : Within 9 (q : ℝ) e) (hF : IsF64 q) (he : e < 2 ^ 31) (ht : t30 < q) :
    ∃ y : F64, largeF64 ln q = some y ∧ |(y : ℝ) - -(2 ^ 32) * Real.log (1 - e / 2 ^ 32)| ≤ 1 / 2 ^ 12 := by
  have hq : q < 2 ^ 32 := by
    have hq' : (q : ℝ) < 2 ^ 32 := by linarith [h.le_right (by decide), h.left_pos]
    exact_mod_cast hq'
  refine ⟨_, largeF64_eq_correction hF ht hq, ?_⟩
  have hhalf : e / 2 ^ 32 ≤ 1 / 2 := by linarith
  have harg : Within 21 (fsub 1 (fdiv q f2p32) : ℝ) (1 - e / 2 ^ 32) := by
    refine Within.round64 ?_
    push_cast
    exact (h.fdiv within_f2p32).one_sub (by decide) hhalf
  have hlog : |Real.log (1 - e / 2 ^ 32)| ≤ 57 := by
    have hpos : 0 ≤ e / 2 ^ 32 := div_nonneg h.right_pos.le (by positivity)
    have h1 := abs_log_le (k := 1) (y := 1 - e / 2 ^ 32) (by linarith) (by linarith)
    linarith
  have hnear := abs_fmul_ln_sub_le harg (by decide) hlog (c := f2p32) (by simp)
  have hc : ((f2p32 : ℚ) : ℝ) = 2 ^ 32 := by simp
  rw [hc] at hnear
  rw [Rat.cast_neg, neg_mul, mul_comm (2 ^ 32), ← neg_sub', abs_neg]
  exact hnear.trans (by norm_num)

section Reals

variable {b v zi : ℕ}

theorem e1Real_of_pos (h : e0Real b zi ≤ 5 / 2 * 2 ^ b ∧ 0 < v) : e1Real b v zi = 2 ^ b * Real.log (2 ^ b / v) :=
  if_pos h

theorem e1Real_of_neg (h : ¬(e0Real b zi ≤ 5 / 2 * 2 ^ b ∧ 0 < v)) : e1Real b v zi = e0Real b zi :=
  if_neg h

theorem e2Real_of_le (h : e1Real b v zi ≤ 2 ^ 32 / 30) : e2Real b v zi = e1Real b v zi :=
  if_neg (not_lt.mpr h)

theorem e2Real_of_lt (h : 2 ^ 32 / 30 < e1Real b v zi) :
    e2Real b v zi = -(2 ^ 32) * Real.log (1 - e1Real b v zi / 2 ^ 32) :=
  if_pos h

/-- Both estimates choose the same small-range case, away from its threshold. -/
theorem small_condition_iff (hzi : 0 < zi)
    (hmargin : (2 : ℝ) ^ (-40 : ℤ) * e0Real b zi < |e0Real b zi - 5 / 2 * 2 ^ b|) :
    rawF64 b zi ≤ mkRat 5 2 * fM b ↔ e0Real b zi ≤ 5 / 2 * 2 ^ b := by
  have hthreshold : Within 0 ((mkRat 5 2 * fM b : ℚ) : ℝ) (5 / 2 * 2 ^ b) := by
    rw [five_halves_mul_fM]
    exact .of_eq (by positivity) (by push_cast; rfl)
  rw [← (within_rawF64 b hzi).le_iff_le hthreshold (by decide) hmargin]
  exact Rat.cast_le.symm

/-- Both estimates choose the same large-range case, away from its threshold. -/
theorem large_condition_iff {q : F64} {e : ℝ} (h : Within 9 (q : ℝ) e)
    (hmargin : (2 : ℝ) ^ (-40 : ℤ) * e < |e - 2 ^ 32 / 30|) : q ≤ t30 ↔ e ≤ 2 ^ 32 / 30 := by
  rw [← h.le_iff_le within_t30 (by decide) hmargin]
  exact Rat.cast_le.symm

/-- Before truncation the two estimates are less than `2^-12` apart, where both choose the same cases. -/
theorem exists_near_e2Real (hl : legalStats b v zi)
    (hm0 : (2 : ℝ) ^ (-40 : ℤ) * e0Real b zi < |e0Real b zi - 5 / 2 * 2 ^ b|)
    (hm1 : (2 : ℝ) ^ (-40 : ℤ) * e1Real b v zi < |e1Real b v zi - 2 ^ 32 / 30|) (hlt : e1Real b v zi < 2 ^ 31) :
    ∃ y : F64, largeF64 ln (smallF64 ln b v (rawF64 b zi)) = some y ∧ |(y : ℝ) - e2Real b v zi| ≤ 1 / 2 ^ 12 := by
  obtain ⟨-, hb, hvm, -, -, hzi⟩ := hl
  have hcases := small_condition_iff hzi hm0
  have hraw := within_rawF64 b hzi
  by_cases hcond : e0Real b zi ≤ 5 / 2 * 2 ^ b ∧ 0 < v
  · -- the small range
    have he1 := e1Real_of_pos hcond
    have hlog := mul_log_div_lt hb hcond.2 hvm
    rw [smallF64_of_pos ⟨hcases.mpr hcond.1, hcond.2⟩, e2Real_of_le (by rw [he1]; linarith), he1]
    refine ⟨_, largeF64_of_lt_small (small_lt hb hcond.2 hvm), ?_⟩
    exact (abs_small_sub_le hb hcond.2 hvm).trans (by norm_num)
  · have he1 := e1Real_of_neg hcond
    rw [smallF64_of_neg fun h => hcond ⟨hcases.mp h.1, h.2⟩]
    rw [he1] at hm1 hlt
    have hcases' := large_condition_iff hraw hm1
    rcases le_or_gt (e0Real b zi) (2 ^ 32 / 30) with hle | hgt
    · -- the raw estimate
      rw [e2Real_of_le (he1.trans_le hle), he1]
      refine ⟨_, largeF64_of_le (hcases'.mpr hle), (hraw.abs_sub_le (by decide)).trans ?_⟩
      linarith
    · -- the large range
      rw [e2Real_of_lt (hgt.trans_eq he1.symm), he1]
      exact largeF64_near hraw (isF64_rawF64 b zi) hlt (not_le.mp fun h => not_le.mpr hgt (hcases'.mp h))

end Reals

/-- Settles O49: the values before truncation are closer than the distance of E2 to the integers. -/
theorem estimateAgreesWithReals : Obligations.EstimateAgreesWithReals := by
  intro b v zi hl hint hm0 hm1 hlt
  obtain ⟨y, hy, hnear⟩ := exists_near_e2Real hl hm0 hm1 hlt
  rw [estF64, estWith, hy, estReal, ← truncData_eq hnear hint]
  rfl

end Sys2Proof.Machine
end

section
/-! SUPPORT. Errors and answers (60_exceptions.md R201 to R205, R215, R216): how a step takes a word that is no command and a word
that is one, what an error response leaves, and which status a command in a state that meets the invariants answers. -/

namespace Sys2Proof.Machine

/-- Settles O10: the branch of `step` for an empty command channel. -/
theorem nothingToDoHoldsState : Obligations.NothingToDoHoldsState :=
  fun _ => step_of_empty

/-! ### Legal and illegal words -/

/-- A word that no row selects decodes to no command (R65, R66). -/
theorem decode_of_illegal {w : CmdWord} (h : w.legal = false) : ∃ e, decode w = .error e :=
  (decodeFollowsOpcodeMap w).2 fun r hr => Bool.eq_false_of_not_eq_true (List.any_eq_false.mp h r hr)

/-- A word that some row selects decodes to a command (R62, R65). -/
theorem decode_of_legal {w : CmdWord} (h : w.legal = true) : ∃ i, decode w = .ok i := by
  obtain ⟨r, hr, hsel⟩ := List.any_eq_true.mp h
  obtain ⟨i, hi, -, -⟩ := (decodeFollowsOpcodeMap w).1 r hr hsel
  exact ⟨i, hi⟩

section Step

variable {s t : State} {w : CmdWord} {rest : List HostEvent}

theorem step_of_illegal (hin : s.cmdIn = .command w :: rest) (hw : w.legal = false) :
    step s = .next (State.answer { s with cmdIn := rest } ⟨.illegal, 0⟩) := by
  obtain ⟨e, he⟩ := decode_of_illegal hw
  rw [step_of_command hin, runWord_of_error he]

theorem step_of_legal (hin : s.cmdIn = .command w :: rest) (hw : w.legal = true) :
    ∃ i, decode w = .ok i ∧ step s = exec i { s with cmdIn := rest } := by
  obtain ⟨i, hi⟩ := decode_of_legal hw
  exact ⟨i, hi, stepRunsDecodedCommand s w rest i hin hi⟩

/-- A step that takes a word takes it off the channel and gives one response (R240). -/
theorem step_command_response (hin : s.cmdIn = .command w :: rest) (hs : step s = .next t) :
    t.cmdIn = rest ∧ ∃ r, t.rspOut = s.rspOut ++ [r] := by
  cases hw : w.legal with
  | false =>
    cases eq_of_next (step_of_illegal hin hw) hs
    exact ⟨rfl, _, rfl⟩
  | true =>
    obtain ⟨i, -, hi⟩ := step_of_legal hin hw
    obtain ⟨hcmd, r, hr, -⟩ := exec_next_response (hi.symm.trans hs)
    exact ⟨hcmd, r, hr⟩

end Step

/-- Settles O7: `raise` puts one response on the channel and touches nothing else. -/
theorem illegalWordDisturbsNothing : Obligations.IllegalWordDisturbsNothing :=
  fun _ _ _ => step_of_illegal

/-! ### Error responses -/

theorem State.response_eq_of_answer {s : State} {r r' : Response} (h : (s.answer r).rspOut = s.rspOut ++ [r']) : r = r' :=
  List.singleton_inj.mp (List.append_cancel_left h)

/-- A command that is answered with an error was refused: one that was carried out has answered OK (R203). -/
theorem exec_next_of_error {i : Instr} {s t : State} {r : Response} (h : exec i s = .next t)
    (hr : t.rspOut = s.rspOut ++ [r]) (hne : r.status ≠ .ok) : t = s.answer ⟨r.status, 0⟩ := by
  rcases exec_next h with ⟨st, -, rfl⟩ | ⟨-, -, -, d, rfl⟩
  · rw [← State.response_eq_of_answer hr]
  · rw [← effectOf_rspOut i s] at hr
    exact absurd (congrArg Response.status (State.response_eq_of_answer hr)).symm hne

/-- Settles O12: an illegal word and a refused command both leave `State.answer` and nothing else. -/
theorem errorChangesNothing : Obligations.ErrorChangesNothing := by
  intro s t w rest r hin hs hr hne
  cases hw : w.legal with
  | false =>
    cases eq_of_next (step_of_illegal hin hw) hs
    rw [← State.response_eq_of_answer (s := { s with cmdIn := rest }) hr]
    rfl
  | true =>
    obtain ⟨i, -, hi⟩ := step_of_legal hin hw
    exact exec_next_of_error (hi.symm.trans hs) hr hne

/-! ### The priority of errors -/

section Status

variable {i : Instr} {s : State}

theorem statusOf_of_not_admitted (h : admittedIn i s.mode = false) : statusOf i s = .seq := if_pos h

theorem statusOf_of_not_configured (h : admittedIn i s.mode = true) (hn : needsConfig i = true)
    (hc : s.cfgv = false) : statusOf i s = .nocfg := by
  simp [statusOf, h, hn, hc]

theorem statusOf_of_admitted (h : admittedIn i s.mode = true) (hc : needsConfig i = true → s.cfgv = true) :
    statusOf i s = (ownCheck i s).getD .ok := by
  rw [statusOf, if_neg (by simp [h]), if_neg fun ⟨hn, hf⟩ => by simp [hc hn] at hf]

/-- An admitted command answers the status of its own check, or OK. -/
theorem admittedOutcome_status (i : Instr) (s : State) :
    ∃ d, (admittedOutcome i s).rspOut = s.rspOut ++ [⟨(ownCheck i s).getD .ok, d⟩] := by
  cases hown : ownCheck i s with
  | some st => exact ⟨0, by rw [admittedOutcome_of_some hown]; rfl⟩
  | none => exact ⟨resultOf i s, by rw [admittedOutcome_of_none hown, State.answer_rspOut, effectOf_rspOut]; rfl⟩

/-- In a state that meets the invariants a command answers the first status of R202 that applies. -/
theorem exec_answers_statusOf (hi : Invariants s) (i : Instr) :
    ∃ t d, exec i s = .next t ∧ t.rspOut = s.rspOut ++ [⟨statusOf i s, d⟩] := by
  cases ha : admittedIn i s.mode with
  | false => exact ⟨_, 0, exec_of_not_admitted ha, by rw [statusOf_of_not_admitted ha]; rfl⟩
  | true =>
    by_cases hc : needsConfig i = true → s.cfgv = true
    · obtain ⟨d, hd⟩ := admittedOutcome_status i s
      exact ⟨_, d, exec_of_admitted hi ha hc, by rw [statusOf_of_admitted ha hc, hd]⟩
    · obtain ⟨hn, hc⟩ := Classical.not_imp.mp hc
      have hf := Bool.eq_false_of_not_eq_true hc
      exact ⟨_, 0, exec_of_not_configured ha hn hf, by rw [statusOf_of_not_configured ha hn hf]; rfl⟩

/-- No status depends on what the host has still to send (log entry 1). -/
theorem statusOf_setCmdIn (i : Instr) (s : State) (events : List HostEvent) :
    statusOf i { s with cmdIn := events } = statusOf i s := by
  cases i <;> rfl

end Status

/-- Settles O13: the word is judged before the command, and taking it off the channel keeps the invariants and the status. -/
theorem statusFollowsPriority : Obligations.StatusFollowsPriority := by
  refine fun s w rest h hin => ⟨fun hw => ⟨_, 0, step_of_illegal hin hw, rfl⟩, fun hw => ?_⟩
  obtain ⟨i, hd, hs⟩ := step_of_legal hin hw
  obtain ⟨t, d, ht, hr⟩ := exec_answers_statusOf (h.frame s.hseed rest s.rspOut) i
  exact ⟨i, t, d, hd, hs.trans ht, statusOf_setCmdIn i s rest ▸ hr⟩

/-! ### Every command is answered -/

/-- Settles O52: a step does not stop by `step_answers`, a word is answered by `step_command_response`, and the reset event
leaves both channels. -/
theorem everyCommandIsAnswered : Obligations.EveryCommandIsAnswered := by
  intro s h
  obtain ⟨t, hs, -⟩ := step_answers h
  refine ⟨t, hs, fun w rest hin => step_command_response hin hs, fun rest hin => ?_⟩
  cases eq_of_next (step_of_reset hin) hs
  exact ⟨rfl, rfl⟩

end Sys2Proof.Machine
end

section
/-! SUPPORT. The reset event (70_reset_and_hazards.md R230). -/

namespace Sys2Proof.Machine

/-- Settles O8: the step answers `State.resetEvent` (`step_of_reset`), whose elements are those of R36 and whose response
channel is the one it found. -/
theorem resetEventGivesResetState : Obligations.ResetEventGivesResetState := by
  intro s rest hin
  let s' : State := { s with cmdIn := rest }
  exact ⟨s'.resetEvent, step_of_reset hin, s'.resetEvent_cfgv, s'.resetEvent_mode, s'.resetEvent_h1,
    s'.resetEvent_tail0, s'.resetEvent_tail1, s'.resetEvent_tail2, s'.resetEvent_tcnt, s'.resetEvent_len,
    s'.resetEvent_hseed, s'.resetEvent_rspOut⟩

end Sys2Proof.Machine
end

section
/-! SUPPORT. The command words that the spec writes out (95_test_vectors.md section 4 and section 6 P3). -/

namespace Sys2Proof.Machine

/-- Settles O4: the six accepted words are the encodings of their commands. Of the rejected ones, the first has no row's
opcode, and the other two are words of ESTIMATE and PUSHB with a must-be-zero field that is not 0 (R66). -/
theorem specWordsDecode : Obligations.SpecWordsDecode := by
  refine ⟨?setseed, ?pushb, ?pushw, ?config, ?rdreg, ?estimate, ?noOpcode, ?estimateAux, ?pushbArg⟩
  case setseed => exact decodeInvertsEncode (.setseed 42)
  case pushb => exact decodeInvertsEncode (.pushb 0x61)
  case pushw => exact decodeInvertsEncode (.pushw 0x64636261)
  case config => exact decodeInvertsEncode (.config 14 42)
  case rdreg => exact decodeInvertsEncode (.rdreg 11)
  case estimate => exact decodeInvertsEncode .estimate
  case noOpcode => rfl
  case estimateAux => exact decodesN_estimate 1 0
  case pushbArg => exact decodesX_pushb 0 0x100

end Sys2Proof.Machine
end
